-- ==== Sys2Proof/Word.lean ====
section
/-! DEFINITION. The word types of CORE (spec/00_scope.md R4 to R6). -/

namespace Sys2Proof

/-- A memory cell, a general register, an operand byte: `u8` (R4, R6). -/
abbrev Byte := BitVec 8

/-- The program counter: 9 bits, so that it can hold 256 (R4, R17). -/
abbrev Pc := BitVec 9

/-- The flags register: bit 2 is `L`, bit 1 is `G`, bit 0 is `E` (R4, R20). -/
abbrev Flags := BitVec 3

/-- The index of a general register, 0 to 7 (R11). -/
abbrev Reg := Fin 8

/-- A general register's index as the operand byte that names it (R57). -/
def regByte (r : Reg) : Byte := BitVec.ofNat 8 r.val

/-- `zext_9`: a byte as a 9-bit value, the same integer (R6). -/
def zext9 (b : Byte) : Pc := b.zeroExtend 9

end Sys2Proof
end

