-- ==== Sys2Proof/Config.lean ====
section
/-! DEFINITION. The parameters of CORE and their values (spec/00_scope.md R4). -/

namespace Sys2Proof

/-- `N`, the number of memory cells (R4, R40; decision D1). -/
@[simp] abbrev Config.memorySize : Nat := 256

/-- `SP_RESET` (R4, R28; decision D2). -/
abbrev Config.spReset : Byte := 0xF4#8

/-- `PC_RESET` (R4, R28). -/
abbrev Config.pcReset : Pc := 0#9

/-- `LOAD_BASE`, the address of the first program byte (R4, R54). -/
abbrev Config.loadBase : Nat := 0

/-- `unknown_opcode_policy`: what an opcode outside the table does (R4, R74; decision D11, open). -/
inductive UnknownOpcodePolicy where
  | skip
  | fault
  deriving DecidableEq, Repr

/-- The policy the spec calls the default (R4, R74). -/
abbrev Config.defaultPolicy : UnknownOpcodePolicy := .skip

end Sys2Proof
end

