-- ==== Sys2Proof/Machine/State.lean ====
section
/-! DEFINITION. The state of CORE as plain data (spec/10_state.md R10), its value after reset (R28), and the reasons a
step can stop. -/

namespace Sys2Proof.Machine

/-- Whether the machine steps (R22). -/
inductive RunState where
  | running
  | halted
  | faulted
  deriving DecidableEq, Repr

/-- The operation tags of the ALU (R90). `other` stands for any tag outside the six, which the ALU reports as
UnsupportedALUOp (R124; decision D26 lets a model keep it). DESIGN CHOICE, safe: log entry 6. -/
inductive AluOp where
  | add | sub | mul | div | and | cmp
  | other (tag : Nat)
  deriving DecidableEq, Repr

/-- The five fault causes (R120). -/
inductive Cause where
  | outOfBounds
  | invalidRegister
  | divisionByZero
  | unsupportedAluOp
  | unknownOpcode
  deriving DecidableEq, Repr

/-- `fault.info` (R120): what it holds per cause. DESIGN CHOICE, safe: log entry 7 (a typed union of the table's column). -/
inductive Info where
  /-- nothing (DivisionByZero) -/
  | nothing
  /-- the offending address or would-be stack pointer (OutOfBounds); -1 for `sp` moving down from 0 -/
  | address (a : Int)
  /-- the offending operand byte (InvalidRegister) -/
  | operand (b : Byte)
  /-- the tag (UnsupportedALUOp) -/
  | tag (op : AluOp)
  /-- the opcode byte (UnknownOpcode) -/
  | opcode (op : Byte)
  deriving DecidableEq, Repr

/-- The fault record (R23; decision D28). -/
structure FaultRecord where
  cause    : Cause
  /-- `P`, the address of the faulting instruction's opcode -/
  pc       : Pc
  /-- the byte at `P`, none when the opcode fetch itself faulted -/
  opcode   : Option Byte
  /-- the read-ahead byte at `P+1`, none where out of bounds -/
  operandA : Option Byte
  /-- the read-ahead byte at `P+2`, none where out of bounds -/
  operandB : Option Byte
  info     : Info
  deriving DecidableEq, Repr

/-- One record of the diagnostic stream: the address and the unknown opcode byte met there (R9, R26). -/
structure DiagRecord where
  addr   : Pc
  opcode : Byte
  deriving DecidableEq, Repr

/-- Memory: the cells that do not hold 0, addresses strictly rising; an unlisted address reads 0, the reset contents
of every cell (R28, R40, R46). DEDUCED, safe: log entry 11. -/
abbrev Memory := List Host.Cell

/-- The state tuple of R10, the two output streams of R26 and the parameter of R74. -/
structure State where
  /-- general registers R0 to R7 (R11) -/
  x      : Vector Byte 8
  /-- stack pointer, an index into memory (R18) -/
  sp     : Byte
  /-- program counter, between steps the address of the next opcode (R15) -/
  pc     : Pc
  /-- result of the last CMP (R20) -/
  fl     : Flags
  /-- run state (R22) -/
  run    : RunState
  /-- fault record; none while no fault has been raised, when the spec calls it not meaningful (R23, R28).
  DESIGN CHOICE, unsafe: log entry 2 -/
  fault  : Option FaultRecord
  /-- `mem[0]` to `mem[255]` (R40) -/
  mem    : Memory
  /-- PRN stream, oldest first (R26). DESIGN CHOICE, safe: log entry 5 (the stream stands in State) -/
  prn    : List Byte
  /-- diagnostic stream, oldest first (R26). DESIGN CHOICE, safe: log entry 5 -/
  diag   : List DiagRecord
  /-- `unknown_opcode_policy`, chosen by the host before a run (R4, R74, R159). DESIGN CHOICE, unsafe: log entry 1 (the
  parameter stands in State) -/
  policy : UnknownOpcodePolicy
  deriving DecidableEq, Repr

/-- Why the machine has no step. Both are raised by `step` alone, never by an instruction: a fault of the spec is a
NEXT state with `run = Faulted` and the record filled (R127). -/
inductive Fault where
  /-- Raised by `step` when `run = Halted`: "the machine has no step" (R70). Safe: the model stops where the spec
  says nothing happens. Log entry 3. -/
  | halted
  /-- Raised by `step` when `run = Faulted`: "the machine has no step" (R70). Safe, as above. Log entry 3. -/
  | faulted
  deriving DecidableEq, Repr

/-- Why an instruction has no meaning in the model. -/
inductive Refusal where
  /-- Raised by an arm of `exec` for an instruction not reached yet; no arm raises it now. Safe: the model stops. -/
  | notModelled (mnemonic : String)
  deriving DecidableEq, Repr

/-- What a step answers. -/
abbrev Out := Host.Outcome State Fault Refusal

/-- The machine right after reset, before the load (R28, R150). -/
def State.reset : State where
  x      := Vector.replicate 8 0#8
  sp     := Config.spReset
  pc     := Config.pcReset
  fl     := 0b000#3
  run    := .running
  fault  := none
  mem    := []
  prn    := []
  diag   := []
  policy := Config.defaultPolicy

end Sys2Proof.Machine
end

