-- ==== Sys2Proof/Machine/Ops.lean ====
section
/-! DEFINITION. The named operations over memory, registers, stack and streams; raising a fault; committing a step. -/

namespace Sys2Proof.Machine

/-- The byte of the cell at `a`, 0 where no entry lists it (R40, R46). -/
def Memory.read : Memory → Nat → Byte
  | [], _ => 0#8
  | (k, v) :: m, a => if k = a then v else Memory.read m a

/-- Store `v` at `a`, keeping the addresses rising and no entry equal to 0 (R42). -/
def Memory.write : Memory → Nat → Byte → Memory
  | [], a, v => if v = 0#8 then [] else [(a, v)]
  | (k, w) :: m, a, v =>
    if k < a then (k, w) :: Memory.write m a v
    else
      let rest := if k = a then m else (k, w) :: m
      if v = 0#8 then rest else (a, v) :: rest

/-- The canonical form from address `lo` up: addresses strictly rising and below `N`, no entry equal to 0. -/
def Memory.wfFrom (lo : Nat) : Memory → Bool
  | [] => true
  | (k, v) :: m => decide (lo ≤ k) && decide (k < Config.memorySize) && decide (v ≠ 0#8) && Memory.wfFrom (k + 1) m

/-- The canonical form of memory: equal memories are equal lists. -/
def Memory.wf (m : Memory) : Bool := Memory.wfFrom 0 m

/-- Copy bytes to consecutive addresses from `base` up, as far as memory reaches (R54). -/
def Memory.place : Nat → List Byte → Memory → Memory
  | _, [], m => m
  | base, b :: bs, m =>
    Memory.place (base + 1) bs (if base < Config.memorySize then Memory.write m base b else m)

/-- What `raise <Cause>(info)` carries (R8). -/
structure Raised where
  cause : Cause
  info  : Info
  deriving DecidableEq, Repr

/-- `raise OutOfBounds(a)` (R121). -/
def outOfBoundsAt (a : Int) : Raised := ⟨.outOfBounds, .address a⟩

/-- The numeric code of a cause (R120; decision D15). -/
def Cause.code : Cause → Nat
  | .outOfBounds => 1
  | .invalidRegister => 2
  | .divisionByZero => 3
  | .unsupportedAluOp => 4
  | .unknownOpcode => 5

/-- The byte at `a` as the model's one read of memory: 0 to 255 is a cell. -/
def State.readByte (s : State) (a : Nat) : Byte := s.mem.read a

/-- `MemRead(addr, 1)` (R41). -/
def State.memRead (s : State) (a : Nat) : Except Raised Byte :=
  if a < Config.memorySize then .ok (s.readByte a) else .error (outOfBoundsAt a)

/-- `MemWrite(addr, 1, v)` (R42). -/
def State.memWrite (s : State) (a : Nat) (v : Byte) : Except Raised State :=
  if a < Config.memorySize then .ok { s with mem := s.mem.write a v } else .error (outOfBoundsAt a)

/-- A read that is skipped where out of bounds: none, and no fault (R72; decision D16). -/
def State.readAhead (s : State) (a : Nat) : Option Byte :=
  if a < Config.memorySize then some (s.readByte a) else none

/-- `x[r]` (R7, R11). -/
def State.reg (s : State) (r : Reg) : Byte := s.x[r]

/-- `x[r] <- v` (R7, R11); no register is hardwired. -/
def State.setReg (s : State) (r : Reg) (v : Byte) : State := { s with x := s.x.set r v }

/-- `fl <- f` (R20). -/
def State.setFlags (s : State) (f : Flags) : State := { s with fl := f }

/-- `pc <- zext_9(t)`: a control transfer's target (R34). -/
def State.jumpTo (s : State) (t : Byte) : State := { s with pc := zext9 t }

/-- `pc <- P + len`, the advance before the handler (R77); `pc` has no wrap at 256 (R17). DESIGN CHOICE: log entry 9 (the
sum is of 9 bits; unsafe only above 256, where no step from the invariant reaches). -/
def State.advance (s : State) (len : Nat) : State := { s with pc := s.pc + BitVec.ofNat 9 len }

/-- `Emit(v)` (R9). -/
def State.emit (s : State) (v : Byte) : State := { s with prn := s.prn ++ [v] }

/-- `Diag(p, op)` (R9). -/
def State.diagnose (s : State) (p : Pc) (op : Byte) : State := { s with diag := s.diag ++ [⟨p, op⟩] }

/-- `run <- Halted` (R115). -/
def State.halt (s : State) : State := { s with run := .halted }

/-- Where a push stores: `sp - 1`, unless `sp` would leave memory (R19, R105; decision D4). -/
def State.pushSlot (s : State) : Except Raised Byte :=
  if s.sp = 0#8 then .error (outOfBoundsAt (-1)) else .ok (s.sp - 1#8)

/-- `sp <- sp - 1; MemWrite(sp, 1, v)` (R105, R110). -/
def State.push (s : State) (v : Byte) : Except Raised State :=
  match s.pushSlot with
  | .error r => .error r
  | .ok slot => State.memWrite { s with sp := slot } slot.toNat v

/-- `MemRead(sp, 1)`, then `sp <- sp + 1`, unless `sp` would leave memory (R19, R106, R111; decision D4). -/
def State.pop (s : State) : Except Raised (Byte × State) :=
  if s.sp = 255#8 then .error (outOfBoundsAt Config.memorySize)
  else
    match s.memRead s.sp.toNat with
    | .error r => .error r
    | .ok v => .ok (v, { s with sp := s.sp + 1#8 })

/-- TAKING A FAULT (R127, R128): `run <- Faulted`, the record filled from the state before the step, nothing else
written, so `pc` stays `P`. The opcode and the read-ahead bytes are those at `P`, `P+1`, `P+2` (R23, R72; DEDUCED, safe:
log entry 8). There is no return from a fault (R131). The result is a NEXT state (DEDUCED, safe: log entry 12). -/
def State.raise (s : State) (r : Raised) : State :=
  { s with
    run := .faulted
    fault := some
      { cause := r.cause
        pc := s.pc
        opcode := s.readAhead s.pc.toNat
        operandA := s.readAhead (s.pc.toNat + 1)
        operandB := s.readAhead (s.pc.toNat + 2)
        info := r.info } }

/-- Commit (R79): all the writes of a step that raises nothing, or the fault taken on the state before the step. -/
def commit (s : State) (h : Except Raised State) : Out :=
  match h with
  | .ok t => .next t
  | .error r => .next (s.raise r)

end Sys2Proof.Machine
end

