-- ==== Sys2Proof/Machine/Flags.lean ====
section
/-! DEFINITION. The flags (spec/10_state.md R20) and the one flag computation (spec/42_alu.md R90, R99). -/

namespace Sys2Proof.Machine

/-- `fl.L` (R20). -/
def flagL (f : Flags) : Bool := f.getLsbD 2

/-- `fl.G` (R20). -/
def flagG (f : Flags) : Bool := f.getLsbD 1

/-- `fl.E` (R20). -/
def flagE (f : Flags) : Bool := f.getLsbD 0

/-- What a comparison of two bytes leaves in the flags, unsigned (R90, R91, R99). -/
def compareFlags (v1 v2 : Byte) : Flags :=
  if v1.toNat < v2.toNat then 0b100#3
  else if v2.toNat < v1.toNat then 0b010#3
  else 0b001#3

/-- The four values the flags can hold: no CMP yet, Less, Greater, Equal (R20, R21). -/
def legalFlags (f : Flags) : Bool := f == 0b000#3 || f == 0b100#3 || f == 0b010#3 || f == 0b001#3

end Sys2Proof.Machine
end

