-- ==== Sys2Proof/Syntax.lean ====
section
/-! DEFINITION. The sixteen instructions (spec/30_encoding.md R56 to R59), each with its operand bytes as they stand
in the encoding: a register operand is a whole byte (R57), so an instruction may name a register that does not exist. -/

namespace Sys2Proof

/-- The sixteen mnemonics of the dispatch table, in its order (R59). -/
inductive Mnemonic where
  | LDI | ADD | MUL | DIV | AND | INC | DEC | CMP | PRN | PUSH | POP | CALL | RET | JMP | JEQ | HLT
  deriving DecidableEq, Repr

/-- The four formats (R56). -/
inductive Format where
  | Z   -- no operand
  | R   -- one register
  | RR  -- two registers
  | RI  -- a register and an immediate
  deriving DecidableEq, Repr

/-- How many operand bytes a format has (R55, R56). -/
def Format.arity : Format → Nat
  | .Z => 0
  | .R => 1
  | .RR => 2
  | .RI => 2

/-- The format column of the dispatch table (R59, R60). -/
def Mnemonic.format : Mnemonic → Format
  | .LDI => .RI
  | .ADD | .MUL | .DIV | .AND | .CMP => .RR
  | .INC | .DEC | .PRN | .PUSH | .POP | .CALL | .JMP | .JEQ => .R
  | .RET | .HLT => .Z

/-- The arity column of the dispatch table, "a static property of the opcode" (R59, R60). -/
def Mnemonic.arity (m : Mnemonic) : Nat := m.format.arity

/-- An instruction: one constructor per row of the opcode table (R59); `a` and `b` are the bytes at `P+1` and `P+2`. -/
inductive Instr where
  | ldi (a imm : Byte)
  | add (a b : Byte)
  | mul (a b : Byte)
  | div (a b : Byte)
  | and (a b : Byte)
  | inc (a : Byte)
  | dec (a : Byte)
  | cmp (a b : Byte)
  | prn (a : Byte)
  | push (a : Byte)
  | pop (a : Byte)
  | call (a : Byte)
  | ret
  | jmp (a : Byte)
  | jeq (a : Byte)
  | hlt
  deriving DecidableEq, Repr

/-- The row of the table an instruction stands for. -/
def Instr.mnemonic : Instr → Mnemonic
  | .ldi _ _ => .LDI
  | .add _ _ => .ADD
  | .mul _ _ => .MUL
  | .div _ _ => .DIV
  | .and _ _ => .AND
  | .inc _ => .INC
  | .dec _ => .DEC
  | .cmp _ _ => .CMP
  | .prn _ => .PRN
  | .push _ => .PUSH
  | .pop _ => .POP
  | .call _ => .CALL
  | .ret => .RET
  | .jmp _ => .JMP
  | .jeq _ => .JEQ
  | .hlt => .HLT

/-- The operand bytes of an instruction, in address order (R56). -/
def Instr.operands : Instr → List Byte
  | .ldi a b | .add a b | .mul a b | .div a b | .and a b | .cmp a b => [a, b]
  | .inc a | .dec a | .prn a | .push a | .pop a | .call a | .jmp a | .jeq a => [a]
  | .ret | .hlt => []

/-- The operand bytes that are register operands, in the order they are checked (R57, R76). -/
def Instr.regOperands : Instr → List Byte
  | .ldi a _ => [a]
  | .add a b | .mul a b | .div a b | .and a b | .cmp a b => [a, b]
  | .inc a | .dec a | .prn a | .push a | .pop a | .call a | .jmp a | .jeq a => [a]
  | .ret | .hlt => []

/-- Length in bytes: `1 + arity` (R55, R64). -/
def Instr.length (i : Instr) : Nat := 1 + i.mnemonic.arity

end Sys2Proof
end

