-- ==== Sys2Proof/WellFormed.lean ====
section
/-! DEFINITION. Which instructions are well formed: every register operand is a register index 0 to 7
(spec/30_encoding.md R57). The immediate of LDI is never checked (R58). An instruction that is not well formed is still an
instruction: it raises InvalidRegister (spec/40_step_cycle.md R76). -/

namespace Sys2Proof

/-- The byte names a register (R13, R57). -/
def validReg (b : Byte) : Bool := decide (b.toNat < 8)

/-- Every register operand names a register (R57). -/
def Instr.wellFormed (i : Instr) : Bool := i.regOperands.all validReg

end Sys2Proof
end

