-- ==== Sys2Proof/Machine/Operands.lean ====
section
/-! DEFINITION. The operand forms (spec/30_encoding.md R56 to R58) and the part of the step between decode and handler:
the register-index check (spec/40_step_cycle.md R76), then the advance (R77), then the handler (R78), then commit (R79). -/

namespace Sys2Proof.Machine

/-- A register operand: the whole byte, 0 to 7, else InvalidRegister (R57, R76, R122). The check stands here and not in
the decoder. DESIGN CHOICE, safe: log entry 4. -/
def regOperand (b : Byte) : Except Raised Reg :=
  if h : b.toNat < 8 then .ok ⟨b.toNat, h⟩ else .error ⟨.invalidRegister, .operand b⟩

/-- Format `Z`: nothing to check, one byte long. -/
def runZ (s : State) (handler : State → Except Raised State) : Out :=
  commit s (handler (s.advance 1))

/-- Format `R`: one register operand, two bytes long. -/
def runR (s : State) (a : Byte) (handler : Reg → State → Except Raised State) : Out :=
  commit s <|
    match regOperand a with
    | .error r => .error r
    | .ok ra => handler ra (s.advance 2)

/-- Format `RR`: two register operands, `a` checked before `b`, three bytes long. -/
def runRR (s : State) (a b : Byte) (handler : Reg → Reg → State → Except Raised State) : Out :=
  commit s <|
    match regOperand a with
    | .error r => .error r
    | .ok ra =>
      match regOperand b with
      | .error r => .error r
      | .ok rb => handler ra rb (s.advance 3)

/-- Format `RI`: a register operand and an immediate that is never checked, three bytes long. -/
def runRI (s : State) (a imm : Byte) (handler : Reg → Byte → State → Except Raised State) : Out :=
  commit s <|
    match regOperand a with
    | .error r => .error r
    | .ok ra => handler ra imm (s.advance 3)

end Sys2Proof.Machine
end

