-- ==== Sys2Proof/Machine/Alu.lean ====
section
/-! DEFINITION. The ALU (spec/42_alu.md R90, R91) and the meanings of the instructions that use it (R92 to R99):
ADD, MUL, DIV, AND, INC, DEC, CMP. -/

namespace Sys2Proof.Machine

/-- `trunc8`: the exact result wrapped to a byte (R6, R91). -/
def trunc8 (v : Int) : Byte := BitVec.ofInt 8 v

/-- What the ALU puts out: a result byte or a new flags value (R33, R90). -/
inductive AluOut where
  | result (v : Byte)
  | flags (f : Flags)
  deriving DecidableEq, Repr

/-- `ALU(op, v1, v2)`: exact arithmetic on the unsigned values, then the wrap (R90). -/
def alu (op : AluOp) (v1 v2 : Byte) : Except Raised AluOut :=
  match op with
  | .add => .ok (.result (trunc8 ((v1.toNat : Int) + v2.toNat)))
  | .sub => .ok (.result (trunc8 ((v1.toNat : Int) - v2.toNat)))
  | .mul => .ok (.result (trunc8 ((v1.toNat : Int) * v2.toNat)))
  | .div =>
    if v2 = 0#8 then .error ⟨.divisionByZero, .nothing⟩
    else .ok (.result (BitVec.ofNat 8 (v1.toNat / v2.toNat)))
  | .and => .ok (.result (v1 &&& v2))
  | .cmp => .ok (.flags (compareFlags v1 v2))
  | .other t => .error ⟨.unsupportedAluOp, .tag (.other t)⟩

/-- The write-back: a result goes to `x[r]`, a comparison to `fl` (R33, R90; conflict C9). -/
def State.writeBack (s : State) (r : Reg) : AluOut → State
  | .result v => s.setReg r v
  | .flags f => s.setFlags f

/-- An ALU handler: compute on two values and write back (R90). -/
def handleAlu (op : AluOp) (r : Reg) (v1 v2 : Byte) (s : State) : Except Raised State :=
  match alu op v1 v2 with
  | .error e => .error e
  | .ok o => .ok (s.writeBack r o)

/-- ADD (R92). -/
def execAdd (a b : Byte) (s : State) : Out :=
  runRR s a b fun ra rb t => handleAlu .add ra (t.reg ra) (t.reg rb) t

/-- MUL (R93). -/
def execMul (a b : Byte) (s : State) : Out :=
  runRR s a b fun ra rb t => handleAlu .mul ra (t.reg ra) (t.reg rb) t

/-- DIV (R94): the quotient goes to the first operand register (decision D8), a zero divisor raises (decision D7). -/
def execDiv (a b : Byte) (s : State) : Out :=
  runRR s a b fun ra rb t => handleAlu .div ra (t.reg ra) (t.reg rb) t

/-- AND (R95). -/
def execAnd (a b : Byte) (s : State) : Out :=
  runRR s a b fun ra rb t => handleAlu .and ra (t.reg ra) (t.reg rb) t

/-- INC (R96): the second value is the constant 1. -/
def execInc (a : Byte) (s : State) : Out :=
  runR s a fun ra t => handleAlu .add ra (t.reg ra) 1#8 t

/-- DEC (R97): the second value is the constant 1; the only use of SUB (R98). -/
def execDec (a : Byte) (s : State) : Out :=
  runR s a fun ra t => handleAlu .sub ra (t.reg ra) 1#8 t

/-- CMP (R99): no register is written. -/
def execCmp (a b : Byte) (s : State) : Out :=
  runRR s a b fun ra rb t => handleAlu .cmp ra (t.reg ra) (t.reg rb) t

end Sys2Proof.Machine
end

