-- ==== Sys2Proof/Machine/Control.lean ====
section
/-! DEFINITION. Control transfer: CALL, RET, JMP, JEQ (spec/45_control_transfer.md R110 to R113). In a handler `pc` is
already the address of the next instruction in memory order (R77). -/

namespace Sys2Proof.Machine

/-- The return address as a byte; 256 does not fit and raises OutOfBounds (R110; decision D10). -/
def returnByte (ret : Nat) : Except Raised Byte :=
  if ret < Config.memorySize then .ok (BitVec.ofNat 8 ret) else .error (outOfBoundsAt ret)

/-- CALL (R110): the return address is checked before `sp` (R129); what is pushed is `P + 2` (decision D9). -/
def execCall (a : Byte) (s : State) : Out :=
  runR s a fun ra t =>
    match returnByte t.pc.toNat with
    | .error r => .error r
    | .ok ret =>
      match t.push ret with
      | .error r => .error r
      | .ok u => .ok (u.jumpTo (t.reg ra))

/-- RET (R111): the read is at the old `sp`. -/
def execRet (s : State) : Out :=
  runZ s fun t =>
    match t.pop with
    | .error r => .error r
    | .ok (v, u) => .ok (u.jumpTo v)

/-- JMP (R112). -/
def execJmp (a : Byte) (s : State) : Out :=
  runR s a fun ra t => .ok (t.jumpTo (t.reg ra))

/-- JEQ (R113): only `fl.E` is looked at; the register index is checked whether or not the branch is taken (D17). -/
def execJeq (a : Byte) (s : State) : Out :=
  runR s a fun ra t => .ok (if flagE t.fl then t.jumpTo (t.reg ra) else t)

end Sys2Proof.Machine
end

