-- ==== Sys2Proof/Machine/Halt.lean ====
section
/-! DEFINITION. HLT (spec/46_hlt.md R115). -/

namespace Sys2Proof.Machine

/-- HLT (R115): `pc` keeps `P + 1`. -/
def execHlt (s : State) : Out :=
  runZ s fun t => .ok t.halt

end Sys2Proof.Machine
end

