-- ==== Sys2Proof/Machine/Immediate.lean ====
section
/-! DEFINITION. Load immediate: LDI (spec/41_ldi.md R85). -/

namespace Sys2Proof.Machine

/-- LDI (R85). -/
def execLdi (a imm : Byte) (s : State) : Out :=
  runRI s a imm fun ra v t => .ok (t.setReg ra v)

end Sys2Proof.Machine
end

