-- ==== Sys2Proof/Machine/Output.lean ====
section
/-! DEFINITION. Output: PRN (spec/43_prn.md R100). -/

namespace Sys2Proof.Machine

/-- PRN (R100). -/
def execPrn (a : Byte) (s : State) : Out :=
  runR s a fun ra t => .ok (t.emit (t.reg ra))

/-- The line the host renders an emitted value as: its decimal digits, most significant first, no sign, no leading
zeros (R100; decision D29). DESIGN CHOICE, safe: log entry 5 (the line as a list of characters). -/
def prnLine (v : Byte) : List Char := Nat.toDigits 10 v.toNat

end Sys2Proof.Machine
end

