-- ==== Sys2Proof/Machine/Stack.lean ====
section
/-! DEFINITION. The stack instructions: PUSH, POP (spec/44_stack.md R105, R106). -/

namespace Sys2Proof.Machine

/-- PUSH (R105). -/
def execPush (a : Byte) (s : State) : Out :=
  runR s a fun ra t => t.push (t.reg ra)

/-- POP (R106): the read is at the old `sp`. -/
def execPop (a : Byte) (s : State) : Out :=
  runR s a fun ra t =>
    match t.pop with
    | .error r => .error r
    | .ok (v, u) => .ok (u.setReg ra v)

end Sys2Proof.Machine
end

