-- ==== Sys2Proof/Decode.lean ====
section
/-! DEFINITION. The instruction decoder (spec/10_state.md R31; spec/40_step_cycle.md R73, R75) and the encoder
(spec/30_encoding.md R56, R59). -/

namespace Sys2Proof

/-- The opcode column of the dispatch table (R59). -/
def Mnemonic.opcode : Mnemonic → Byte
  | .LDI => 0b10000010#8
  | .ADD => 0b10100000#8
  | .MUL => 0b10100010#8
  | .DIV => 0b10100011#8
  | .AND => 0b10101000#8
  | .INC => 0b01100101#8
  | .DEC => 0b01100110#8
  | .CMP => 0b10100111#8
  | .PRN => 0b01000111#8
  | .PUSH => 0b01000101#8
  | .POP => 0b01000110#8
  | .CALL => 0b01010000#8
  | .RET => 0b00010001#8
  | .JMP => 0b01010100#8
  | .JEQ => 0b01010101#8
  | .HLT => 0b00000001#8

/-- The rows of the dispatch table, in the source's order (R59). -/
def dispatchTable : List Mnemonic :=
  [.LDI, .ADD, .MUL, .DIV, .AND, .INC, .DEC, .CMP, .PRN, .PUSH, .POP, .CALL, .RET, .JMP, .JEQ, .HLT]

/-- Look the opcode byte up: all eight bits must match (R59, R73). -/
def lookup (ir : Byte) : Option Mnemonic :=
  dispatchTable.find? (fun m => m.opcode == ir)

/-- Why bytes are no instruction. -/
inductive DecodeError where
  /-- There is no opcode byte. -/
  | noOpcode
  /-- The opcode byte is not in the table (R62, R74). -/
  | unknownOpcode (op : Byte)
  /-- The operand byte at offset `k` (1 or 2) from the opcode is needed and absent (R75). -/
  | missingOperand (k : Nat)
  deriving DecidableEq, Repr

/-- The instruction of a row with its operand bytes (R56); a byte the arity does not select is ignored (R63). -/
def Mnemonic.build (m : Mnemonic) (a b : Byte) : Instr :=
  match m with
  | .LDI => .ldi a b
  | .ADD => .add a b
  | .MUL => .mul a b
  | .DIV => .div a b
  | .AND => .and a b
  | .INC => .inc a
  | .DEC => .dec a
  | .CMP => .cmp a b
  | .PRN => .prn a
  | .PUSH => .push a
  | .POP => .pop a
  | .CALL => .call a
  | .RET => .ret
  | .JMP => .jmp a
  | .JEQ => .jeq a
  | .HLT => .hlt

/-- Operand selection (R75): the arity says how many of the read-ahead bytes are needed; a needed one that is
absent is reported, the first before the second. -/
def selectOperands (arity : Nat) (oa ob : Option Byte) : Except DecodeError (Byte × Byte) :=
  if 1 ≤ arity ∧ oa = none then .error (.missingOperand 1)
  else if arity = 2 ∧ ob = none then .error (.missingOperand 2)
  else .ok (oa.getD 0, ob.getD 0)

/-- The instruction decoder (R31): the opcode byte and the two read-ahead bytes, absent where out of bounds (R72). -/
def decode (ir : Byte) (oa ob : Option Byte) : Except DecodeError Instr :=
  match lookup ir with
  | none => .error (.unknownOpcode ir)
  | some m =>
    match selectOperands m.arity oa ob with
    | .error e => .error e
    | .ok (a, b) => .ok (m.build a b)

/-- Decode the instruction at the front of a byte sequence in address order (R55, R56). -/
def decodeBytes : List Byte → Except DecodeError Instr
  | [] => .error .noOpcode
  | ir :: rest => decode ir rest[0]? rest[1]?

/-- The bytes of an instruction in address order: `opcode ++ a ++ b` (R56). -/
def encode (i : Instr) : List Byte := i.mnemonic.opcode :: i.operands

/-- The bytes of a table word: the first byte is the least significant, every bit from `nbits` up is 0; as many
bytes as the longest instruction has (R4). -/
def tableWordBytes (nbits w : Nat) : List Byte :=
  let v := w % 2 ^ nbits
  [BitVec.ofNat 8 v, BitVec.ofNat 8 (v / 256), BitVec.ofNat 8 (v / 65536)]

/-- What the decoder reads from an instruction whose bits are `w`, numbered as spec/opcode_table.json numbers them. -/
def decodeTableWord (nbits w : Nat) : Option Instr :=
  match decodeBytes (tableWordBytes nbits w) with
  | .ok i => some i
  | .error _ => none

end Sys2Proof
end

