-- ==== Sys2Proof/Machine/Fetch.lean ====
section
/-! DEFINITION. Fetch and read-ahead (spec/40_step_cycle.md R71, R72), and what bytes that are no instruction do
(R74, R75). -/

namespace Sys2Proof.Machine

/-- The transient values of a step: the opcode byte and the two read-ahead bytes (R27, R30). -/
structure Fetched where
  ir : Byte
  oa : Option Byte
  ob : Option Byte
  deriving DecidableEq, Repr

/-- The fetch unit (R30): the opcode fetch raises OutOfBounds at `pc = 256` (R71); a read-ahead address out of bounds
is skipped without fault (R72). -/
def fetch (s : State) : Except Raised Fetched :=
  match s.memRead s.pc.toNat with
  | .error r => .error r
  | .ok ir => .ok ⟨ir, s.readAhead (s.pc.toNat + 1), s.readAhead (s.pc.toNat + 2)⟩

/-- An opcode outside the table (R74): under `skip` a diagnostic and `pc <- P + 1`, under `fault` UnknownOpcode. -/
def unknownOpcode (op : Byte) (s : State) : Out :=
  match s.policy with
  | .skip => .next ((s.diagnose s.pc op).advance 1)
  | .fault => .next (s.raise ⟨.unknownOpcode, .opcode op⟩)

/-- What the step does with bytes the decoder rejects (R74, R75). A step always fetches an opcode byte, so `noOpcode`
does not arise there; it is the fetch fault of R71. -/
def decodeFailure (e : DecodeError) (s : State) : Out :=
  match e with
  | .unknownOpcode op => unknownOpcode op s
  | .missingOperand k => .next (s.raise (outOfBoundsAt ((s.pc.toNat + k : Nat) : Int)))
  | .noOpcode => .next (s.raise (outOfBoundsAt s.pc.toNat))

end Sys2Proof.Machine
end

