-- ==== Sys2Proof/Machine/Step.lean ====
section
/-! DEFINITION. The step (spec/40_step_cycle.md R70 to R82), and how the host's check places an instruction. -/

namespace Sys2Proof.Machine

/-- One step of a running machine (R82): fetch, decode, then the instruction. -/
def stepRunning (s : State) : Host.Outcome State Fault Refusal :=
  match fetch s with
  | .error r => .next (s.raise r)
  | .ok f =>
    match decode f.ir f.oa f.ob with
    | .error e => decodeFailure e s
    | .ok i => exec i s

/-- A step happens only when `run = Running` (R70). Halted and Faulted have no step: the model stops, by name. DESIGN
CHOICE, safe: log entry 3. -/
def step (s : State) : Host.Outcome State Fault Refusal :=
  match s.run with
  | .running => stepRunning s
  | .halted => .fault .halted
  | .faulted => .fault .faulted

/-- `s` with an instruction's bytes stored where `step` fetches next, as far as memory reaches; nothing else changes.
DESIGN CHOICE, safe: log entry 10. -/
def State.withFetchWord (s : State) (nbits w : Nat) : State :=
  { s with mem := Memory.place s.pc.toNat (tableWordBytes nbits w) s.mem }

end Sys2Proof.Machine
end

