-- ==== Sys2Proof/Machine/Run.lean ====
section
/-! DEFINITION. What the host does around a run (spec/20_memory.md R54; spec/70_reset_and_hazards.md R150, R151, R159,
R160): load, the repetition of the step, and the result. -/

namespace Sys2Proof.Machine

/-- Reset, load, choice of policy (R150, R151, R159): an image longer than memory is refused and no run starts
(R54; decision D22). -/
def launch (policy : UnknownOpcodePolicy) (image : List Byte) : Option State :=
  if image.length ≤ Config.memorySize then
    some { State.reset with mem := Memory.place Config.loadBase image State.reset.mem, policy := policy }
  else none

/-- The repetition of the step, at most `budget` times: it stops where the machine has no step (R70), or at a step
boundary when the host's budget is spent (R159; decision D25). -/
def runFor : Nat → State → State
  | 0, s => s
  | k + 1, s =>
    match step s with
    | .next t => runFor k t
    | .fault _ => s
    | .refused _ => s

/-- The result of an ended run (R160). -/
structure RunResult where
  run   : RunState
  prn   : List Byte
  diag  : List DiagRecord
  x     : Vector Byte 8
  sp    : Byte
  pc    : Pc
  fl    : Flags
  mem   : Memory
  fault : Option FaultRecord
  deriving DecidableEq, Repr

/-- A run has ended when `run` is Halted or Faulted; only then is there a result, and the fault record is part of it
only when Faulted (R160). -/
def runResult (s : State) : Option RunResult :=
  match s.run with
  | .running => none
  | .halted => some ⟨.halted, s.prn, s.diag, s.x, s.sp, s.pc, s.fl, s.mem, none⟩
  | .faulted => some ⟨.faulted, s.prn, s.diag, s.x, s.sp, s.pc, s.fl, s.mem, s.fault⟩

end Sys2Proof.Machine
end

