-- ==== Sys2Proof/Safety.lean ====
section
/-! DEFINITION. What a sound state and a safe run are, in the terms the statements use. -/

namespace Sys2Proof.Machine

/-- The bytes `bs` stand in memory at consecutive addresses from `a` up, all of them inside memory. -/
def State.bytesAt (s : State) : Nat → List Byte → Bool
  | _, [] => true
  | a, b :: bs => decide (a < Config.memorySize) && s.readByte a == b && s.bytesAt (a + 1) bs

/-- A running machine whose `pc` stands at the bytes `bs`: the next step fetches them. -/
abbrev State.fetches (s : State) (bs : List Byte) : Prop :=
  s.run = .running ∧ s.bytesAt s.pc.toNat bs = true

/-- A running machine with room in memory for an instruction of `len` bytes at `pc` (R45, R70, R75). -/
abbrev State.readyFor (s : State) (len : Nat) : Prop :=
  s.run = .running ∧ s.pc.toNat + len ≤ 256

/-- The `info` a cause is recorded with (R120, R121): 256 or -1 for OutOfBounds, a byte 8 to 255 for InvalidRegister,
nothing for DivisionByZero, an opcode outside the table for UnknownOpcode; UnsupportedALUOp is never recorded (R124). -/
def infoFits : Cause → Info → Bool
  | .outOfBounds, .address a => a == 256 || a == -1
  | .invalidRegister, .operand b => decide (8 ≤ b.toNat)
  | .divisionByZero, .nothing => true
  | .unknownOpcode, .opcode op => lookup op == none
  | _, _ => false

/-- A fault record belongs to the state it stands in (R23, R127, R128): it names this `pc` and the bytes there. -/
def State.recordFits (s : State) (f : FaultRecord) : Bool :=
  f.pc == s.pc && f.opcode == s.readAhead s.pc.toNat && f.operandA == s.readAhead (s.pc.toNat + 1) &&
    f.operandB == s.readAhead (s.pc.toNat + 2) && infoFits f.cause f.info

/-- A diagnostic names an address inside memory and an opcode outside the table (R26, R74). -/
def diagFits (d : DiagRecord) : Bool := decide (d.addr.toNat < Config.memorySize) && lookup d.opcode == none

/-- The invariant of the machine: every step keeps it. -/
structure State.Inv (s : State) : Prop where
  /-- memory is in canonical form (the model's own: log entry 11, DEDUCED, safe) -/
  memWf : s.mem.wf = true
  /-- `pc` is 0 to 256 (R10, R17) -/
  pcInRange : s.pc.toNat ≤ 256
  /-- `fl` holds one of its four values (R20) -/
  flagsLegal : legalFlags s.fl = true
  /-- there is a fault record when `run = Faulted` (R127), and none otherwise: the latter is the model's choice (log entry
  2, DESIGN CHOICE, unsafe: R23 leaves the record undefined there) -/
  recordWhenFaulted : s.run = .faulted ↔ s.fault.isSome = true
  /-- the fault record describes this state -/
  recordFits : ∀ f, s.fault = some f → s.recordFits f = true
  /-- every diagnostic is of an unknown opcode -/
  diagFits : ∀ d ∈ s.diag, Sys2Proof.Machine.diagFits d = true
  /-- there are diagnostics under policy `skip` only (R125) -/
  diagWhenSkip : s.policy = .fault → s.diag = []

/-- A run has ended (R160). -/
abbrev State.ended (s : State) : Prop := s.run ≠ .running

/-- A safe end of a run: "HLT is the only clean way to end a run" (R115). -/
abbrev State.endedCleanly (s : State) : Prop := s.run = .halted

/-- An opcode `op` of an instruction of `len` bytes, so near the end of memory that an operand byte is missing, raises
OutOfBounds(256) (R75). -/
def MissingOperandRaises (op : Byte) (len : Nat) : Prop :=
  ∀ s : State, s.run = .running → s.pc.toNat < 256 → 256 < s.pc.toNat + len → s.readByte s.pc.toNat = op →
    step s = .next (s.raise (outOfBoundsAt 256))

/-- The instruction whose bytes are `bs` raises InvalidRegister(`b`), wherever it stands (R76, R122). -/
def BadRegisterRaises (bs : List Byte) (b : Byte) : Prop :=
  ∀ s : State, s.fetches bs → step s = .next (s.raise ⟨.invalidRegister, .operand b⟩)

/-- Every register but the one the operand byte `dst` names holds what it held. -/
def keepsRegsBut (dst : Option Byte) (s t : State) : Prop :=
  ∀ r : Reg, dst ≠ some (regByte r) → t.reg r = s.reg r

/-- Every byte of memory reads as before. -/
def keepsMemory (s t : State) : Prop := ∀ a : Nat, t.readByte a = s.readByte a

/-- Every byte of memory outside the cell a push stores to reads as before; where a push stores nothing, every byte. -/
def keepsMemoryButPushSlot (s t : State) : Prop :=
  (∀ slot, s.pushSlot = .ok slot → ∀ a : Nat, a ≠ slot.toNat → t.readByte a = s.readByte a) ∧
  (∀ r, s.pushSlot = .error r → ∀ a : Nat, t.readByte a = s.readByte a)

/-- `run` and the fault record are as before, or a fault was taken: the record is the new one, `pc` and the registers
are as before (R127, R128). -/
def keepsRunUnlessFault (s t : State) : Prop :=
  (t.run = s.run ∧ t.fault = s.fault) ∨
  (∃ r, t = s.raise r)

end Sys2Proof.Machine
end

