-- ==== Sys2Proof/Certificates/Slice0/Obligations.lean ====
section
/-! DEFINITION. The statements for the provers, each from the numbered rules of spec/. A step answers a NEXT state also
when it takes a fault: `s.raise r` is the state fault entry leaves (spec/60_exceptions.md R127). -/

open Sys2Proof Sys2Proof.Machine

/-! ### Reset, load, invariant -/

/-- 10_state.md section 8 (R28): what reset leaves. `fl = 0b000` is decision D6 and the empty streams are decision D20 of
the spec; the fault record, "not meaningful" there, is left out (log entry 2). -/
def Obligations.ResetLeavesTheTableOfR28 : Prop :=
  (∀ r : Reg, State.reset.reg r = 0#8) ∧ State.reset.pc = 0#9 ∧ State.reset.sp = 0xF4#8 ∧
  State.reset.fl = 0b000#3 ∧ State.reset.run = .running ∧ (∀ a : Nat, State.reset.readByte a = 0#8) ∧
  State.reset.prn = [] ∧ State.reset.diag = []

/-- 20_memory.md R54 and 70_reset_and_hazards.md R151: the image stands from address 0, the other cells hold 0, the rest
is as reset left it; an image longer than 256 bytes is refused (decision D22). -/
def Obligations.LaunchCopiesImageFromAddressZero : Prop :=
  ∀ (policy : UnknownOpcodePolicy) (image : List Byte),
    (image.length ≤ 256 → ∃ s, launch policy image = some s ∧
      (∀ a : Nat, s.readByte a = image.getD a 0#8) ∧
      s = { State.reset with mem := s.mem, policy := policy }) ∧
    (256 < image.length → launch policy image = none)

/-- The state after reset meets the invariant. That there is no fault record before a fault is the model's choice (log
entry 2, DESIGN CHOICE), and so is the canonical form of memory (log entry 11, DEDUCED). -/
def Obligations.ResetMeetsInvariant : Prop := State.reset.Inv

/-- Every state a run can start from meets the invariant. That a launched state has no fault record is the model's choice
(log entry 2, DESIGN CHOICE: R28 calls the record not meaningful there), and so is the canonical form of its memory (log
entry 11, DEDUCED). -/
def Obligations.LaunchMeetsInvariant : Prop :=
  ∀ (policy : UnknownOpcodePolicy) (image : List Byte) (s : State), launch policy image = some s → s.Inv

/-- Every step keeps the invariant: memory canonical, `pc` 0 to 256 (R17), one of four flag values (R20), a fault record
when Faulted (R127) that names this `pc` and the bytes there (R128) with the `info` of its cause (R120, R121) and never
UnsupportedALUOp (R124), and no record otherwise; diagnostics of unknown opcodes only and only under `skip` (R125). Rests on
decisions D3, D5, D12, D13, D28 of the spec. Two clauses are the model's choice: that there is no record while `run` is not
Faulted (log entry 2, DESIGN CHOICE: R23 leaves the record undefined there) and the canonical form of memory (log entry 11,
DEDUCED). -/
def Obligations.StepKeepsInvariant : Prop :=
  ∀ s t : State, s.Inv → step s = .next t → t.Inv

/-! ### Encoding -/

/-- 30_encoding.md R60: the partition of the sixteen opcodes by arity. -/
def Obligations.ArityPartitionOfR60 : Prop :=
  (∀ m : Mnemonic, m.arity = 2 ↔ m ∈ [Mnemonic.LDI, .ADD, .MUL, .DIV, .AND, .CMP]) ∧
  (∀ m : Mnemonic, m.arity = 1 ↔ m ∈ [Mnemonic.INC, .DEC, .PRN, .PUSH, .POP, .CALL, .JMP, .JEQ]) ∧
  (∀ m : Mnemonic, m.arity = 0 ↔ m ∈ [Mnemonic.RET, .HLT])

/-- Words written out from 30_encoding.md R56 and R59, one of each family, and what they stand for. -/
def Obligations.WordsOfTheEncodingTableDecode : Prop :=
  decodeBytes [0x82, 0x00, 0x08] = .ok (.ldi 0 8) ∧ decodeBytes [0xA0, 0x00, 0x01] = .ok (.add 0 1) ∧
  decodeBytes [0xA7, 0x06, 0x07] = .ok (.cmp 6 7) ∧ decodeBytes [0x47, 0x05] = .ok (.prn 5) ∧
  decodeBytes [0x45, 0x02] = .ok (.push 2) ∧ decodeBytes [0x55, 0x03] = .ok (.jeq 3) ∧
  decodeBytes [0x01] = .ok .hlt

/-- Decoding the encoding of any instruction, whatever bytes follow it, gives that instruction back, every operand byte
kept; the bytes that follow are ignored (30_encoding.md R55, R56, R59, R63). -/
def Obligations.DecodeOfEncodeIsTheInstruction : Prop :=
  ∀ (i : Instr) (rest : List Byte), decodeBytes (encode i ++ rest) = .ok i

/-- Bytes that decode to an instruction begin with its encoding, `1 + arity` bytes long (R55, R59, R64): each instruction has
one encoding. -/
def Obligations.DecodedBytesBeginWithTheEncoding : Prop :=
  ∀ (bs : List Byte) (i : Instr), decodeBytes bs = .ok i →
    (∃ rest, bs = encode i ++ rest) ∧ (encode i).length = 1 + i.mnemonic.arity

/-- 30_encoding.md R62: a byte that is none of the sixteen opcodes is unknown, whatever follows it; no operand byte is
consumed and no register index checked. -/
def Obligations.BytesOutsideTheTableAreUnknown : Prop :=
  ∀ (op : Byte) (rest : List Byte),
    op ∉ [0x82#8, 0xA0#8, 0xA2#8, 0xA3#8, 0xA8#8, 0x65#8, 0x66#8, 0xA7#8, 0x47#8, 0x45#8, 0x46#8, 0x50#8, 0x11#8,
      0x54#8, 0x55#8, 0x01#8] ↔ decodeBytes (op :: rest) = .error (.unknownOpcode op)

/-! ### The step -/

/-- When the bytes at `pc` decode to an instruction, the step is that instruction's meaning: `exec` sets `pc` to
`P + 1 + arity` itself, so the step adds nothing around it (40_step_cycle.md R73, R77, R78). -/
def Obligations.StepRunsTheDecodedInstruction : Prop :=
  ∀ (s : State) (i : Instr), s.run = .running → s.pc.toNat < 256 →
    decode (s.readByte s.pc.toNat) (s.readAhead (s.pc.toNat + 1)) (s.readAhead (s.pc.toNat + 2)) = .ok i →
    step s = exec i s

/-- An instruction whose encoding stands at `pc`, inside memory, is run by the next step, at any address (R45, R56, R78). -/
def Obligations.InstructionAtPcRuns : Prop :=
  ∀ (s : State) (i : Instr), s.fetches (encode i) → step s = exec i s

/-- 40_step_cycle.md R70: a step happens exactly when `run = Running`. That a halted or faulted machine answers a named stop
is the model's choice (log entry 3). -/
def Obligations.StepHappensExactlyWhenRunning : Prop :=
  ∀ s : State, ((∃ t, step s = .next t) ↔ s.run = .running) ∧
    (s.run = .halted → step s = .fault .halted) ∧ (s.run = .faulted → step s = .fault .faulted)

/-- 40_step_cycle.md R71: the opcode fetch. -/
def Obligations.OpcodeFetchOfR71 : Prop :=
  ∀ s : State, s.run = .running →
    (256 ≤ s.pc.toNat → step s = .next { s with
      run := .faulted
      fault := some ⟨.outOfBounds, s.pc, none, none, none, .address s.pc.toNat⟩ }) ∧
    (s.pc.toNat < 256 → ∃ f, fetch s = .ok f ∧ f.ir = s.readByte s.pc.toNat)

/-- 40_step_cycle.md R72: both read-ahead bytes are read where in bounds and skipped without fault elsewhere (decision
D16). -/
def Obligations.ReadAheadSkipsOutOfBounds : Prop :=
  ∀ s : State, s.pc.toNat < 256 → ∃ f, fetch s = .ok f ∧
    f.oa = (if s.pc.toNat + 1 < 256 then some (s.readByte (s.pc.toNat + 1)) else none) ∧
    f.ob = (if s.pc.toNat + 2 < 256 then some (s.readByte (s.pc.toNat + 2)) else none)

/-- 40_step_cycle.md R75: a known instruction whose operand bytes run past the end of memory raises OutOfBounds(256), for
every row of the table (decision D16); one without operands does not. -/
def Obligations.MissingOperandByteRaises : Prop :=
  ∀ (s : State) (m : Mnemonic), s.run = .running → s.pc.toNat < 256 → lookup (s.readByte s.pc.toNat) = some m →
    (256 ≤ s.pc.toNat + m.arity → step s = .next (s.raise (outOfBoundsAt 256))) ∧
    (m.arity = 0 → ∃ i : Instr, i.mnemonic = m ∧ step s = exec i s)

/-- 40_step_cycle.md R74 and 60_exceptions.md R125: an unknown opcode under both policies (decision D11). -/
def Obligations.UnknownOpcodeFollowsThePolicy : Prop :=
  ∀ s : State, s.run = .running → s.pc.toNat < 256 → lookup (s.readByte s.pc.toNat) = none →
    (s.policy = .skip →
      step s = .next { s with diag := s.diag ++ [⟨s.pc, s.readByte s.pc.toNat⟩], pc := s.pc + 1#9 }) ∧
    (s.policy = .fault →
      step s = .next (s.raise ⟨.unknownOpcode, .opcode (s.readByte s.pc.toNat)⟩))

/-- 60_exceptions.md R122: a register operand byte 8 to 255 raises InvalidRegister with that byte, the first invalid one of
the instruction, whatever the rest of the state. -/
def Obligations.InvalidRegisterOfR122 : Prop :=
  ∀ (s : State) (i : Instr) (pre : List Byte) (b : Byte) (post : List Byte),
    i.regOperands = pre ++ b :: post → (∀ c ∈ pre, c.toNat < 8) → 8 ≤ b.toNat →
    exec i s = .next (s.raise ⟨.invalidRegister, .operand b⟩) ∧
    (s.fetches (encode i) → step s = .next (s.raise ⟨.invalidRegister, .operand b⟩)) ∧
    Cause.code .invalidRegister = 2

/-- 30_encoding.md R57 and 40_step_cycle.md R76: the well-formed instructions are exactly those that do not raise
InvalidRegister, in every state, whether or not a branch would be taken (decision D17). -/
def Obligations.InvalidRegisterExactlyWhenIllFormed : Prop :=
  ∀ (s : State) (i : Instr) (t : State), exec i s = .next t → s.fault = none →
    (i.wellFormed = false ↔ ∃ f, t.fault = some f ∧ f.cause = .invalidRegister)

/-- 60_exceptions.md R127, R128, R139: a step that faults changes `run` and the fault record alone; the record names `P`, the
bytes at `P`, `P+1`, `P+2`, and nothing else of the state differs (decisions D12, D13, D28). -/
def Obligations.FaultsArePrecise : Prop :=
  ∀ s t : State, step s = .next t → t.run = .faulted → ∃ (cause : Cause) (info : Info), t = { s with
    run := .faulted
    fault := some
      { cause := cause
        pc := s.pc
        opcode := if s.pc.toNat < 256 then some (s.readByte s.pc.toNat) else none
        operandA := if s.pc.toNat + 1 < 256 then some (s.readByte (s.pc.toNat + 1)) else none
        operandB := if s.pc.toNat + 2 < 256 then some (s.readByte (s.pc.toNat + 2)) else none
        info := info } }

/-- 60_exceptions.md R124: the ALU raises UnsupportedALUOp for a tag outside the six, and no step records it (decision D26,
log entry 6). -/
def Obligations.UnsupportedAluOpIsUnreachable : Prop :=
  (∀ (tag : Nat) (v1 v2 : Byte), alu (.other tag) v1 v2 = .error ⟨.unsupportedAluOp, .tag (.other tag)⟩) ∧
  (∀ (s t : State) (f : FaultRecord), step s = .next t → s.fault = none → t.fault = some f →
    f.cause ≠ .unsupportedAluOp)

/-- 60_exceptions.md R123: no instruction but DIV raises DivisionByZero, and DIV does so exactly when its divisor register
holds 0 (decision D7). The premise that no record stands yet uses log entry 2: a record found afterwards is this one's. -/
def Obligations.OnlyDivisionByZeroRegisterRaises : Prop :=
  ∀ (s : State) (i : Instr) (t : State), exec i s = .next t → s.fault = none →
    ((∃ f, t.fault = some f ∧ f.cause = .divisionByZero) ↔
      ∃ ra rb : Reg, i = .div (regByte ra) (regByte rb) ∧ s.reg rb = 0#8)

/-- 60_exceptions.md R121: the complete list of the situations that raise OutOfBounds (decisions D3, D4, D10, D16). -/
def Obligations.OutOfBoundsExactlyInTheListOfR121 : Prop :=
  ∀ s : State, s.run = .running → s.fault = none → s.pc.toNat ≤ 256 →
    ((∃ t f, step s = .next t ∧ t.fault = some f ∧ f.cause = .outOfBounds) ↔
      s.pc.toNat = 256 ∨
      (∃ m, lookup (s.readByte s.pc.toNat) = some m ∧ s.pc.toNat < 256 ∧
        ((1 ≤ m.arity ∧ s.pc.toNat = 255) ∨ (m.arity = 2 ∧ s.pc.toNat = 254))) ∨
      (∃ r, (s.fetches [0x45#8, regByte r] ∨ s.fetches [0x50#8, regByte r]) ∧ s.sp = 0#8) ∨
      (∃ r, s.fetches [0x46#8, regByte r] ∧ s.sp = 255#8) ∨
      (s.fetches [0x11#8] ∧ s.sp = 255#8) ∨
      (∃ r, s.fetches [0x50#8, regByte r] ∧ s.pc.toNat = 254))

/-! ### The blocks: ALU, memory, registers -/

/-- 42_alu.md R90: the ALU as a function of a tag and two bytes. -/
def Obligations.AluFunctionOfR90 : Prop :=
  ∀ v1 v2 : Byte,
    alu .add v1 v2 = .ok (.result (BitVec.ofNat 8 ((v1.toNat + v2.toNat) % 256))) ∧
    alu .sub v1 v2 = .ok (.result (BitVec.ofNat 8 ((v1.toNat + 256 - v2.toNat) % 256))) ∧
    alu .mul v1 v2 = .ok (.result (BitVec.ofNat 8 ((v1.toNat * v2.toNat) % 256))) ∧
    (v2.toNat = 0 → alu .div v1 v2 = .error ⟨.divisionByZero, .nothing⟩) ∧
    (v2.toNat ≠ 0 → alu .div v1 v2 = .ok (.result (BitVec.ofNat 8 (v1.toNat / v2.toNat)))) ∧
    alu .and v1 v2 = .ok (.result (v1 &&& v2)) ∧
    (v1.toNat < v2.toNat → alu .cmp v1 v2 = .ok (.flags 0b100#3)) ∧
    (v2.toNat < v1.toNat → alu .cmp v1 v2 = .ok (.flags 0b010#3)) ∧
    (v1.toNat = v2.toNat → alu .cmp v1 v2 = .ok (.flags 0b001#3)) ∧
    (∀ tag, alu (.other tag) v1 v2 = .error ⟨.unsupportedAluOp, .tag (.other tag)⟩)

/-- 20_memory.md R41: MemRead. It answers a byte, not a state, so it changes nothing. -/
def Obligations.MemReadOfR41 : Prop :=
  ∀ (s : State) (a : Nat),
    (a < 256 → s.memRead a = .ok (s.readByte a)) ∧
    (256 ≤ a → s.memRead a = .error ⟨.outOfBounds, .address a⟩)

/-- 20_memory.md R42: MemWrite, over memories in the model's canonical form (which every step keeps). -/
def Obligations.MemWriteOfR42 : Prop :=
  ∀ (s : State) (a : Nat) (v : Byte), s.mem.wf = true →
    (a < 256 → ∃ t, s.memWrite a v = .ok t ∧ t.readByte a = v ∧ (∀ b, b ≠ a → t.readByte b = s.readByte b) ∧
      t.mem.wf = true ∧ t = { s with mem := t.mem }) ∧
    (256 ≤ a → s.memWrite a v = .error ⟨.outOfBounds, .address a⟩)

/-- Two memories in canonical form that read alike are the same list: the model's form of 20_memory.md R40. -/
def Obligations.MemoriesThatReadAlikeAreEqual : Prop :=
  ∀ m n : Memory, m.wf = true → n.wf = true → (∀ a : Nat, m.read a = n.read a) → m = n

/-- 10_state.md R11, R32: every general register holds what was last written to it, none is hardwired, and a write changes no
other. -/
def Obligations.RegistersHoldWhatIsWritten : Prop :=
  ∀ (s : State) (r : Reg) (v : Byte), (s.setReg r v).reg r = v ∧ (∀ q, q ≠ r → (s.setReg r v).reg q = s.reg q) ∧
    s.setReg r v = { s with x := (s.setReg r v).x }

/-! ### The instructions: what each does, and where it raises -/

/-- 41_ldi.md R85. -/
def Obligations.LdiLoadsTheImmediate : Prop :=
  (∀ (s : State) (r : Reg) (imm : Byte), s.readyFor 3 →
    exec (.ldi (regByte r) imm) s = .next { s with x := s.x.set r imm, pc := s.pc + 3#9 }) ∧
  (∀ (s : State) (a imm : Byte), 8 ≤ a.toNat →
    exec (.ldi a imm) s = .next (s.raise ⟨.invalidRegister, .operand a⟩)) ∧
  (∀ (s : State) (a imm : Byte), s.fetches [0x82#8, a, imm] → step s = exec (.ldi a imm) s) ∧
  MissingOperandRaises 0x82#8 3

/-- 42_alu.md R92: the sum wraps modulo 256. -/
def Obligations.AddStoresTheWrappedSum : Prop :=
  (∀ (s : State) (a b : Reg), s.readyFor 3 → exec (.add (regByte a) (regByte b)) s =
    .next { s with x := s.x.set a (BitVec.ofNat 8 ((s.reg a).toNat + (s.reg b).toNat)), pc := s.pc + 3#9 }) ∧
  (∀ (s : State) (a b : Byte), 8 ≤ a.toNat →
    exec (.add a b) s = .next (s.raise ⟨.invalidRegister, .operand a⟩)) ∧
  (∀ (s : State) (a : Reg) (b : Byte), 8 ≤ b.toNat →
    exec (.add (regByte a) b) s = .next (s.raise ⟨.invalidRegister, .operand b⟩)) ∧
  (∀ (s : State) (a b : Byte), s.fetches [0xA0#8, a, b] → step s = exec (.add a b) s) ∧
  MissingOperandRaises 0xA0#8 3

/-- 42_alu.md R93: the low byte of the product. -/
def Obligations.MulStoresTheWrappedProduct : Prop :=
  (∀ (s : State) (a b : Reg), s.readyFor 3 → exec (.mul (regByte a) (regByte b)) s =
    .next { s with x := s.x.set a (BitVec.ofNat 8 ((s.reg a).toNat * (s.reg b).toNat)), pc := s.pc + 3#9 }) ∧
  (∀ (s : State) (a b : Byte), 8 ≤ a.toNat →
    exec (.mul a b) s = .next (s.raise ⟨.invalidRegister, .operand a⟩)) ∧
  (∀ (s : State) (a : Reg) (b : Byte), 8 ≤ b.toNat →
    exec (.mul (regByte a) b) s = .next (s.raise ⟨.invalidRegister, .operand b⟩)) ∧
  (∀ (s : State) (a b : Byte), s.fetches [0xA2#8, a, b] → step s = exec (.mul a b) s) ∧
  MissingOperandRaises 0xA2#8 3

/-- 42_alu.md R94: the floor of the quotient goes to the first register (decision D8); a zero divisor raises and writes
nothing (decision D7), after the register checks. -/
def Obligations.DivStoresTheQuotientOrRaises : Prop :=
  (∀ (s : State) (a b : Reg), s.readyFor 3 → s.reg b ≠ 0#8 → exec (.div (regByte a) (regByte b)) s =
    .next { s with x := s.x.set a (BitVec.ofNat 8 ((s.reg a).toNat / (s.reg b).toNat)), pc := s.pc + 3#9 }) ∧
  (∀ (s : State) (a b : Reg), s.readyFor 3 → s.reg b = 0#8 → exec (.div (regByte a) (regByte b)) s =
    .next (s.raise ⟨.divisionByZero, .nothing⟩)) ∧
  (∀ (s : State) (a b : Byte), 8 ≤ a.toNat →
    exec (.div a b) s = .next (s.raise ⟨.invalidRegister, .operand a⟩)) ∧
  (∀ (s : State) (a : Reg) (b : Byte), 8 ≤ b.toNat →
    exec (.div (regByte a) b) s = .next (s.raise ⟨.invalidRegister, .operand b⟩)) ∧
  (∀ (s : State) (a b : Byte), s.fetches [0xA3#8, a, b] → step s = exec (.div a b) s) ∧
  MissingOperandRaises 0xA3#8 3

/-- 42_alu.md R95. -/
def Obligations.AndStoresTheBitwiseAnd : Prop :=
  (∀ (s : State) (a b : Reg), s.readyFor 3 → exec (.and (regByte a) (regByte b)) s =
    .next { s with x := s.x.set a (s.reg a &&& s.reg b), pc := s.pc + 3#9 }) ∧
  (∀ (s : State) (a b : Byte), 8 ≤ a.toNat →
    exec (.and a b) s = .next (s.raise ⟨.invalidRegister, .operand a⟩)) ∧
  (∀ (s : State) (a : Reg) (b : Byte), 8 ≤ b.toNat →
    exec (.and (regByte a) b) s = .next (s.raise ⟨.invalidRegister, .operand b⟩)) ∧
  (∀ (s : State) (a b : Byte), s.fetches [0xA8#8, a, b] → step s = exec (.and a b) s) ∧
  MissingOperandRaises 0xA8#8 3

/-- 42_alu.md R96. -/
def Obligations.IncAddsOneWrapping : Prop :=
  (∀ (s : State) (a : Reg), s.readyFor 2 → exec (.inc (regByte a)) s =
    .next { s with x := s.x.set a (BitVec.ofNat 8 ((s.reg a).toNat + 1)), pc := s.pc + 2#9 }) ∧
  (∀ (s : State) (a : Byte), 8 ≤ a.toNat →
    exec (.inc a) s = .next (s.raise ⟨.invalidRegister, .operand a⟩)) ∧
  (∀ (s : State) (a : Byte), s.fetches [0x65#8, a] → step s = exec (.inc a) s) ∧
  MissingOperandRaises 0x65#8 2

/-- 42_alu.md R97. -/
def Obligations.DecSubtractsOneWrapping : Prop :=
  (∀ (s : State) (a : Reg), s.readyFor 2 → exec (.dec (regByte a)) s =
    .next { s with x := s.x.set a (BitVec.ofNat 8 ((s.reg a).toNat + 255)), pc := s.pc + 2#9 }) ∧
  (∀ (s : State) (a : Byte), 8 ≤ a.toNat →
    exec (.dec a) s = .next (s.raise ⟨.invalidRegister, .operand a⟩)) ∧
  (∀ (s : State) (a : Byte), s.fetches [0x66#8, a] → step s = exec (.dec a) s) ∧
  MissingOperandRaises 0x66#8 2

/-- 42_alu.md R99: unsigned comparison; all three bits are overwritten, no register is; the flags stay until the next CMP. -/
def Obligations.CmpSetsExactlyOneFlag : Prop :=
  (∀ (s : State) (a b : Reg), s.readyFor 3 → exec (.cmp (regByte a) (regByte b)) s =
    .next { s with
      fl := if (s.reg a).toNat < (s.reg b).toNat then 0b100#3
        else if (s.reg b).toNat < (s.reg a).toNat then 0b010#3 else 0b001#3
      pc := s.pc + 3#9 }) ∧
  (∀ (s : State) (a b : Byte), 8 ≤ a.toNat →
    exec (.cmp a b) s = .next (s.raise ⟨.invalidRegister, .operand a⟩)) ∧
  (∀ (s : State) (a : Reg) (b : Byte), 8 ≤ b.toNat →
    exec (.cmp (regByte a) b) s = .next (s.raise ⟨.invalidRegister, .operand b⟩)) ∧
  (∀ (s : State) (a b : Byte), s.fetches [0xA7#8, a, b] → step s = exec (.cmp a b) s) ∧
  MissingOperandRaises 0xA7#8 3 ∧
  (∀ s t : State, step s = .next t → t.fl ≠ s.fl → s.readByte s.pc.toNat = 0xA7#8)

/-- 43_prn.md R100: the unsigned value goes to the end of the PRN stream. The rendering of a line (decision D29) is the
host's and is not stated here. -/
def Obligations.PrnEmitsTheRegister : Prop :=
  (∀ (s : State) (a : Reg), s.readyFor 2 → exec (.prn (regByte a)) s =
    .next { s with prn := s.prn ++ [s.reg a], pc := s.pc + 2#9 }) ∧
  (∀ (s : State) (a : Byte), 8 ≤ a.toNat →
    exec (.prn a) s = .next (s.raise ⟨.invalidRegister, .operand a⟩)) ∧
  (∀ (s : State) (a : Byte), s.fetches [0x47#8, a] → step s = exec (.prn a) s) ∧
  MissingOperandRaises 0x47#8 2

/-- 44_stack.md R105: the write is at the new `sp`; at `sp = 0` nothing is written. -/
def Obligations.PushStoresAtTheNewSp : Prop :=
  (∀ (s : State) (a : Reg), s.readyFor 2 → s.sp ≠ 0#8 → exec (.push (regByte a)) s =
    .next { s with sp := s.sp - 1#8, mem := s.mem.write (s.sp.toNat - 1) (s.reg a), pc := s.pc + 2#9 }) ∧
  (∀ (s : State) (a : Reg), s.readyFor 2 → s.sp = 0#8 → exec (.push (regByte a)) s =
    .next (s.raise ⟨.outOfBounds, .address (-1)⟩)) ∧
  (∀ (s : State) (a : Byte), 8 ≤ a.toNat →
    exec (.push a) s = .next (s.raise ⟨.invalidRegister, .operand a⟩)) ∧
  (∀ (s : State) (a : Byte), s.fetches [0x45#8, a] → step s = exec (.push a) s) ∧
  MissingOperandRaises 0x45#8 2

/-- 44_stack.md R106: the read is at the old `sp`; at `sp = 255` nothing is written. -/
def Obligations.PopLoadsFromTheOldSp : Prop :=
  (∀ (s : State) (a : Reg), s.readyFor 2 → s.sp ≠ 255#8 → exec (.pop (regByte a)) s =
    .next { s with x := s.x.set a (s.readByte s.sp.toNat), sp := s.sp + 1#8, pc := s.pc + 2#9 }) ∧
  (∀ (s : State) (a : Reg), s.readyFor 2 → s.sp = 255#8 → exec (.pop (regByte a)) s =
    .next (s.raise ⟨.outOfBounds, .address 256⟩)) ∧
  (∀ (s : State) (a : Byte), 8 ≤ a.toNat →
    exec (.pop a) s = .next (s.raise ⟨.invalidRegister, .operand a⟩)) ∧
  (∀ (s : State) (a : Byte), s.fetches [0x46#8, a] → step s = exec (.pop a) s) ∧
  MissingOperandRaises 0x46#8 2

/-- 45_control_transfer.md R110: `P + 2` is pushed (decision D9), then `pc` is the register; a return address of 256 raises
(decision D10), before the check of `sp`. -/
def Obligations.CallPushesTheNextAddress : Prop :=
  (∀ (s : State) (a : Reg), s.readyFor 2 → s.pc.toNat ≠ 254 → s.sp ≠ 0#8 → exec (.call (regByte a)) s =
    .next { s with
      sp := s.sp - 1#8
      mem := s.mem.write (s.sp.toNat - 1) (BitVec.ofNat 8 (s.pc.toNat + 2))
      pc := zext9 (s.reg a) }) ∧
  (∀ (s : State) (a : Reg), s.readyFor 2 → s.pc.toNat = 254 → exec (.call (regByte a)) s =
    .next (s.raise ⟨.outOfBounds, .address 256⟩)) ∧
  (∀ (s : State) (a : Reg), s.readyFor 2 → s.pc.toNat ≠ 254 → s.sp = 0#8 → exec (.call (regByte a)) s =
    .next (s.raise ⟨.outOfBounds, .address (-1)⟩)) ∧
  (∀ (s : State) (a : Byte), 8 ≤ a.toNat →
    exec (.call a) s = .next (s.raise ⟨.invalidRegister, .operand a⟩)) ∧
  (∀ (s : State) (a : Byte), s.fetches [0x50#8, a] → step s = exec (.call a) s) ∧
  MissingOperandRaises 0x50#8 2

/-- 45_control_transfer.md R111: at address 255 too, since RET has no operand. -/
def Obligations.RetPopsThePc : Prop :=
  (∀ s : State, s.readyFor 1 → s.sp ≠ 255#8 → exec .ret s =
    .next { s with pc := zext9 (s.readByte s.sp.toNat), sp := s.sp + 1#8 }) ∧
  (∀ s : State, s.readyFor 1 → s.sp = 255#8 → exec .ret s = .next (s.raise ⟨.outOfBounds, .address 256⟩)) ∧
  (∀ s : State, s.fetches [0x11#8] → step s = exec .ret s)

/-- 45_control_transfer.md R112. -/
def Obligations.JmpSetsThePc : Prop :=
  (∀ (s : State) (a : Reg), s.readyFor 2 → exec (.jmp (regByte a)) s = .next { s with pc := zext9 (s.reg a) }) ∧
  (∀ (s : State) (a : Byte), 8 ≤ a.toNat →
    exec (.jmp a) s = .next (s.raise ⟨.invalidRegister, .operand a⟩)) ∧
  (∀ (s : State) (a : Byte), s.fetches [0x54#8, a] → step s = exec (.jmp a) s) ∧
  MissingOperandRaises 0x54#8 2

/-- 45_control_transfer.md R113: taken exactly when `fl.E`, bit 0 of `fl`, is 1; the register index is checked either way. -/
def Obligations.JeqBranchesOnEqual : Prop :=
  (∀ (s : State) (a : Reg), s.readyFor 2 → s.fl.getLsbD 0 = true →
    exec (.jeq (regByte a)) s = .next { s with pc := zext9 (s.reg a) }) ∧
  (∀ (s : State) (a : Reg), s.readyFor 2 → s.fl.getLsbD 0 = false →
    exec (.jeq (regByte a)) s = .next { s with pc := s.pc + 2#9 }) ∧
  (∀ (s : State) (a : Byte), 8 ≤ a.toNat →
    exec (.jeq a) s = .next (s.raise ⟨.invalidRegister, .operand a⟩)) ∧
  (∀ (s : State) (a : Byte), s.fetches [0x55#8, a] → step s = exec (.jeq a) s) ∧
  MissingOperandRaises 0x55#8 2

/-- 46_hlt.md R115: `run` becomes Halted, `pc` is `P + 1` (256 from address 255), nothing else changes, and no step
follows. -/
def Obligations.HltHaltsTheMachine : Prop :=
  (∀ s : State, s.readyFor 1 → exec .hlt s = .next { s with run := .halted, pc := s.pc + 1#9 }) ∧
  (∀ s : State, s.fetches [0x01#8] → step s = exec .hlt s) ∧
  (∀ s t : State, exec .hlt s = .next t → ∀ u, step t ≠ .next u)

/-! ### Frames: what an instruction leaves unchanged -/

/-- LDI, ADD, MUL, DIV, AND, INC, DEC: no register but the one the first operand byte names; no flag, `sp`, stream, policy or
byte of memory. -/
def Obligations.RegisterInstructionsFrame : Prop :=
  ∀ (s t : State) (a b : Byte),
    (exec (.ldi a b) s = .next t ∨ exec (.add a b) s = .next t ∨ exec (.mul a b) s = .next t ∨
      exec (.div a b) s = .next t ∨ exec (.and a b) s = .next t ∨ exec (.inc a) s = .next t ∨
      exec (.dec a) s = .next t) →
    keepsRegsBut (some a) s t ∧ t.fl = s.fl ∧ t.sp = s.sp ∧ t.prn = s.prn ∧ t.diag = s.diag ∧
    t.policy = s.policy ∧ keepsMemory s t ∧ keepsRunUnlessFault s t

/-- CMP: everything but `fl` and `pc`. -/
def Obligations.CmpFrame : Prop :=
  ∀ (s t : State) (a b : Byte), exec (.cmp a b) s = .next t →
    keepsRegsBut none s t ∧ t.sp = s.sp ∧ t.prn = s.prn ∧ t.diag = s.diag ∧ t.policy = s.policy ∧
    keepsMemory s t ∧ keepsRunUnlessFault s t

/-- PRN: everything but the PRN stream and `pc`. -/
def Obligations.PrnFrame : Prop :=
  ∀ (s t : State) (a : Byte), exec (.prn a) s = .next t →
    keepsRegsBut none s t ∧ t.fl = s.fl ∧ t.sp = s.sp ∧ t.diag = s.diag ∧ t.policy = s.policy ∧
    keepsMemory s t ∧ keepsRunUnlessFault s t

/-- PUSH, CALL: no register, flag, stream or policy, and no byte of memory outside the cell the push stores to,
`s.pushSlot`. `sp` and `pc` may change. -/
def Obligations.PushAndCallFrame : Prop :=
  ∀ (s t : State) (a : Byte), (exec (.push a) s = .next t ∨ exec (.call a) s = .next t) →
    keepsRegsBut none s t ∧ t.fl = s.fl ∧ t.prn = s.prn ∧ t.diag = s.diag ∧ t.policy = s.policy ∧
    keepsMemoryButPushSlot s t ∧ keepsRunUnlessFault s t

/-- POP: no register but its own, no flag, stream, policy or byte of memory. RET: no register at all. `sp` and `pc` may
change. -/
def Obligations.PopAndRetFrame : Prop :=
  ∀ (s t : State) (dst : Option Byte),
    ((∃ a, dst = some a ∧ exec (.pop a) s = .next t) ∨ (dst = none ∧ exec .ret s = .next t)) →
    keepsRegsBut dst s t ∧ t.fl = s.fl ∧ t.prn = s.prn ∧ t.diag = s.diag ∧ t.policy = s.policy ∧
    keepsMemory s t ∧ keepsRunUnlessFault s t

/-- JMP, JEQ: everything but `pc`. HLT: everything but `pc` and `run`, and no fault. -/
def Obligations.JumpAndHaltFrame : Prop :=
  ∀ (s t : State) (a : Byte),
    (exec (.jmp a) s = .next t ∨ exec (.jeq a) s = .next t ∨ exec .hlt s = .next t) →
    keepsRegsBut none s t ∧ t.fl = s.fl ∧ t.sp = s.sp ∧ t.prn = s.prn ∧ t.diag = s.diag ∧ t.policy = s.policy ∧
    keepsMemory s t ∧ (keepsRunUnlessFault s t ∨ (exec .hlt s = .next t ∧ t.run = .halted ∧ t.fault = s.fault))

/-! ### Whole-machine rules -/

/-- 10_state.md R12, R18, R20, R22, R26 and 20_memory.md R43, over every step: which instruction, by the opcode at `pc`, can
change which piece of state. -/
def Obligations.OnlyTheseInstructionsWrite : Prop :=
  ∀ s t : State, step s = .next t →
    (t.fl ≠ s.fl → lookup (s.readByte s.pc.toNat) = some .CMP) ∧
    (t.sp ≠ s.sp → ∃ m ∈ [Mnemonic.PUSH, .POP, .CALL, .RET], lookup (s.readByte s.pc.toNat) = some m) ∧
    (t.mem ≠ s.mem → ∃ m ∈ [Mnemonic.PUSH, .CALL], lookup (s.readByte s.pc.toNat) = some m) ∧
    (t.prn ≠ s.prn → lookup (s.readByte s.pc.toNat) = some .PRN) ∧
    (t.diag ≠ s.diag → lookup (s.readByte s.pc.toNat) = none) ∧
    (t.run = .halted → lookup (s.readByte s.pc.toNat) = some .HLT) ∧
    (∀ r, t.reg r ≠ s.reg r → s.readByte (s.pc.toNat + 1) = regByte r ∧
      ∃ m ∈ [Mnemonic.LDI, .ADD, .MUL, .DIV, .AND, .INC, .DEC, .POP],
        lookup (s.readByte s.pc.toNat) = some m) ∧
    t.policy = s.policy

/-- 10_state.md R26 and 60_exceptions.md R139: a step appends to the two streams and never reads them: with any other streams
in their place the step does the same and appends the same (decision D20). -/
def Obligations.StreamsAreAppendedToAndNeverRead : Prop :=
  ∀ (s t : State) (p : List Byte) (d : List DiagRecord), step s = .next t →
    ∃ p' d', t.prn = s.prn ++ p' ∧ t.diag = s.diag ++ d' ∧ p'.length + d'.length ≤ 1 ∧
      step { s with prn := p, diag := d } = .next { t with prn := p ++ p', diag := d ++ d' }

/-- 20_memory.md R52: a byte written by a push is what the very next step fetches, if `pc` is there. -/
def Obligations.PushedByteIsFetchedNext : Prop :=
  ∀ (s t : State) (a : Reg), s.mem.wf = true → s.readyFor 2 → s.sp ≠ 0#8 →
    exec (.push (regByte a)) s = .next t → t.pc.toNat = s.sp.toNat - 1 →
    ∃ f, fetch t = .ok f ∧ f.ir = s.reg a

/-- 44_stack.md R106 ("PUSH then POP on the same register round-trips the value and restores SP to its pre-push value"), for
any two registers; the cell below `sp` still holds the value. -/
def Obligations.PushThenPopRoundTrips : Prop :=
  ∀ (s : State) (a b : Reg), s.mem.wf = true → s.fetches [0x45#8, regByte a] → s.sp ≠ 0#8 →
    ∃ t, step s = .next t ∧ (t.fetches [0x46#8, regByte b] →
      ∃ u, step t = .next u ∧ u.reg b = s.reg a ∧ (∀ r, r ≠ b → u.reg r = s.reg r) ∧ u.sp = s.sp ∧
        u.readByte (s.sp.toNat - 1) = s.reg a ∧ u.run = .running)

/-- 45_control_transfer.md R111 ("CALL followed by RET returns control to the instruction immediately after the CALL
instruction ..., and SP is restored to its pre-CALL value"); no register and no flag changes (decision D9). -/
def Obligations.CallThenRetReturns : Prop :=
  ∀ (s : State) (a : Reg), s.mem.wf = true → s.fetches [0x50#8, regByte a] → s.pc.toNat ≠ 254 → s.sp ≠ 0#8 →
    ∃ t, step s = .next t ∧ t.pc = zext9 (s.reg a) ∧ t.run = .running ∧
      (t.readByte t.pc.toNat = 0x11#8 →
        ∃ u, step t = .next u ∧ u.pc.toNat = s.pc.toNat + 2 ∧ u.sp = s.sp ∧ u.x = s.x ∧ u.fl = s.fl ∧
          u.run = .running)

/-- 70_reset_and_hazards.md R159, 40_step_cycle.md R70 and R131: a run stopped at a step boundary by the host's budget and
resumed goes on as if it had not been stopped (decision D25), and an ended run stays as it is. -/
def Obligations.BudgetedRunsResume : Prop :=
  (∀ (j k : Nat) (s : State), runFor (j + k) s = runFor k (runFor j s)) ∧
  (∀ (k : Nat) (s : State), s.ended → runFor k s = s)

/-- 70_reset_and_hazards.md R160: a state has a result exactly when the run has ended, and from every state of the invariant the
fault record is part of it exactly when Faulted (a record that stands while Halted is ruled out by the invariant, which there
rests on log entry 2). -/
def Obligations.EndedRunsHaveTheResultOfR160 : Prop :=
  ∀ s : State, (runResult s = none ↔ ¬ s.ended) ∧
    (s.Inv → ∀ r, runResult s = some r → (r.run = s.run ∧ r.prn = s.prn ∧ r.diag = s.diag ∧ r.x = s.x ∧ r.sp = s.sp ∧
      r.pc = s.pc ∧ r.fl = s.fl ∧ r.mem = s.mem ∧ r.fault = s.fault ∧
      (r.fault.isSome = true ↔ r.run = .faulted)))
end

