-- ==== Sys2Proof/Laws/Decode.lean ====
section
/-! SUPPORT. The laws of the decoder: the table's rows, operand selection, and what a decoded instruction is. -/

namespace Sys2Proof

/-- Each row's opcode selects that row (R59). -/
theorem lookup_opcode (m : Mnemonic) : lookup m.opcode = some m := by cases m <;> rfl

/-- An opcode selects a row only by matching it on all eight bits (R59, R73). -/
theorem opcode_of_lookup {ir : Byte} {m : Mnemonic} (h : lookup ir = some m) : m.opcode = ir := by
  simpa using List.find?_some h

/-- The row of a built instruction. -/
@[simp] theorem build_mnemonic (m : Mnemonic) (a b : Byte) : (m.build a b).mnemonic = m := by cases m <;> rfl

/-- The operand bytes of a built instruction are those the arity selects (R75). -/
theorem build_operands (m : Mnemonic) (a b : Byte) : (m.build a b).operands = [a, b].take m.arity := by
  cases m <;> rfl

/-- An arity is 0, 1 or 2 (R60). -/
theorem arity_cases (m : Mnemonic) : m.arity = 0 ∨ m.arity = 1 ∨ m.arity = 2 := by
  cases m <;> simp [Mnemonic.arity, Mnemonic.format, Format.arity]

/-- An unknown opcode is rejected whatever follows it (R62, R74). -/
theorem decode_unknown {ir : Byte} (h : lookup ir = none) (oa ob : Option Byte) :
    decode ir oa ob = .error (.unknownOpcode ir) := by simp [decode, h]

/-- What operand selection can answer (R75). -/
theorem selectOperands_cases (n : Nat) (oa ob : Option Byte) :
    (1 ≤ n ∧ oa = none ∧ selectOperands n oa ob = .error (.missingOperand 1)) ∨
    (n = 2 ∧ oa ≠ none ∧ ob = none ∧ selectOperands n oa ob = .error (.missingOperand 2)) ∨
    ((1 ≤ n → oa ≠ none) ∧ (n = 2 → ob ≠ none) ∧ selectOperands n oa ob = .ok (oa.getD 0, ob.getD 0)) := by
  unfold selectOperands
  by_cases h1 : 1 ≤ n ∧ oa = none
  · exact .inl ⟨h1.1, h1.2, if_pos h1⟩
  · by_cases h2 : n = 2 ∧ ob = none
    · refine .inr (.inl ⟨h2.1, fun h => h1 ⟨by omega, h⟩, h2.2, ?_⟩)
      rw [if_neg h1, if_pos h2]
    · refine .inr (.inr ⟨fun hn h => h1 ⟨hn, h⟩, fun hn h => h2 ⟨hn, h⟩, ?_⟩)
      rw [if_neg h1, if_neg h2]

/-- What the decoder can answer, in the order of the step's phases (R73 to R75). -/
theorem decode_cases (ir : Byte) (oa ob : Option Byte) :
    (lookup ir = none ∧ decode ir oa ob = .error (.unknownOpcode ir)) ∨
    ∃ m, lookup ir = some m ∧
      ((1 ≤ m.arity ∧ oa = none ∧ decode ir oa ob = .error (.missingOperand 1)) ∨
       (m.arity = 2 ∧ oa ≠ none ∧ ob = none ∧ decode ir oa ob = .error (.missingOperand 2)) ∨
       ((1 ≤ m.arity → oa ≠ none) ∧ (m.arity = 2 → ob ≠ none) ∧
         decode ir oa ob = .ok (m.build (oa.getD 0) (ob.getD 0)))) := by
  cases hl : lookup ir with
  | none => exact .inl ⟨rfl, decode_unknown hl oa ob⟩
  | some m =>
    refine .inr ⟨m, rfl, ?_⟩
    rcases selectOperands_cases m.arity oa ob with ⟨h1, h2, h3⟩ | ⟨h1, h2, h3, h4⟩ | ⟨h1, h2, h3⟩
    · exact .inl ⟨h1, h2, by simp [decode, hl, h3]⟩
    · exact .inr (.inl ⟨h1, h2, h3, by simp [decode, hl, h4]⟩)
    · exact .inr (.inr ⟨h1, h2, by simp [decode, hl, h3]⟩)

/-- A decoded instruction: its row is the opcode's, and the bytes its arity needs are there. -/
theorem decode_ok {ir : Byte} {oa ob : Option Byte} {i : Instr} (h : decode ir oa ob = .ok i) :
    lookup ir = some i.mnemonic ∧ (1 ≤ i.mnemonic.arity → oa ≠ none) ∧ (i.mnemonic.arity = 2 → ob ≠ none) := by
  rcases decode_cases ir oa ob with ⟨-, e⟩ | ⟨m, hl, ⟨-, -, e⟩ | ⟨-, -, -, e⟩ | ⟨h1, h2, e⟩⟩ <;> rw [e] at h
  · cases h
  · cases h
  · cases h
  · cases h
    simpa using ⟨hl, h1, h2⟩

end Sys2Proof
end

