-- ==== Sys2Proof/Laws/Memory.lean ====
section
/-! SUPPORT. The laws of memory: read after write, and the canonical form. -/

namespace Sys2Proof.Machine

/-- A cell reads the byte written to it. -/
theorem Memory.read_write_self (m : Memory) (a : Nat) (v : Byte) (h : Memory.wf m = true) :
    (m.write a v).read a = v := by
  have key : ∀ (m : Memory) (lo : Nat), Memory.wfFrom lo m = true → (m.write a v).read a = v := by
    intro m
    induction m with
    | nil => intro lo _; by_cases hv : v = 0#8 <;> simp [Memory.write, Memory.read, hv]
    | cons c m ih =>
      obtain ⟨k, w⟩ := c
      intro lo hm
      simp only [Memory.wfFrom, Bool.and_eq_true, decide_eq_true_eq] at hm
      by_cases hlt : k < a
      · simp [Memory.write, hlt, Memory.read, Nat.ne_of_lt hlt, ih _ hm.2]
      · have absent : ∀ (m : Memory) (lo : Nat), a < lo → Memory.wfFrom lo m = true → m.read a = 0#8 := by
          intro m
          induction m with
          | nil => intros; rfl
          | cons c m ih =>
            obtain ⟨k, w⟩ := c
            intro lo hlo hm
            simp only [Memory.wfFrom, Bool.and_eq_true, decide_eq_true_eq] at hm
            have : k ≠ a := by omega
            simp [Memory.read, this, ih (k + 1) (by omega) hm.2]
        by_cases hv : v = 0#8
        · by_cases hk : k = a
          · simp [Memory.write, hv, hk, absent m (k + 1) (by omega) hm.2]
          · simp [Memory.write, hlt, hv, hk, Memory.read, absent m (k + 1) (by omega) hm.2]
        · by_cases hk : k = a <;> simp [Memory.write, hlt, hv, hk, Memory.read]
  exact key m 0 h

/-- A write leaves every other cell alone. -/
theorem Memory.read_write_ne (m : Memory) {a b : Nat} (v : Byte) (h : b ≠ a) :
    (m.write a v).read b = m.read b := by
  induction m with
  | nil => by_cases hv : v = 0#8 <;> simp [Memory.write, Memory.read, hv, h.symm]
  | cons c m ih =>
    obtain ⟨k, w⟩ := c
    by_cases hlt : k < a
    · rw [Memory.write, if_pos hlt, Memory.read, Memory.read, ih]
    · by_cases hv : v = 0#8 <;> by_cases hk : k = a <;>
        simp [Memory.write, hlt, hv, hk, Memory.read, h.symm]

/-- The canonical form from a lower address holds from a higher one no entry stands below. -/
theorem Memory.wfFrom_mono {lo hi : Nat} {m : Memory} (h : lo ≤ hi) (hm : Memory.wfFrom hi m = true) :
    Memory.wfFrom lo m = true := by
  cases m with
  | nil => rfl
  | cons c m =>
    simp only [Memory.wfFrom, Bool.and_eq_true, decide_eq_true_eq] at hm ⊢
    exact ⟨⟨⟨by omega, hm.1.1.2⟩, hm.1.2⟩, hm.2⟩

/-- A write inside memory keeps the canonical form. -/
theorem Memory.write_wf {m : Memory} {a : Nat} (v : Byte) (ha : a < Config.memorySize)
    (hm : Memory.wf m = true) : Memory.wf (m.write a v) = true := by
  have key : ∀ (m : Memory) (lo : Nat), lo ≤ a → Memory.wfFrom lo m = true →
      Memory.wfFrom lo (m.write a v) = true := by
    intro m
    induction m with
    | nil =>
      intro lo hlo _
      by_cases hv : v = 0#8 <;> simp_all [Memory.write, Memory.wfFrom]
    | cons c m ih =>
      obtain ⟨k, w⟩ := c
      intro lo hlo hm
      have hm' := hm
      simp only [Memory.wfFrom, Bool.and_eq_true, decide_eq_true_eq] at hm
      by_cases hlt : k < a
      · simp [Memory.write, hlt, Memory.wfFrom, hm.1.1.1, hm.1.2, ih (k + 1) hlt hm.2]
        simpa using hm.1.1.2
      · have htail : Memory.wfFrom (a + 1) (if k = a then m else (k, w) :: m) = true := by
          by_cases hk : k = a
          · subst hk; simpa using hm.2
          · simp only [hk, if_false, Memory.wfFrom, Bool.and_eq_true, decide_eq_true_eq]
            exact ⟨⟨⟨by omega, hm.1.1.2⟩, hm.1.2⟩, hm.2⟩
        by_cases hv : v = 0#8
        · simpa [Memory.write, hlt, hv] using Memory.wfFrom_mono (by omega) htail
        · simp only [Memory.write, hlt, hv, if_false, Memory.wfFrom, Bool.and_eq_true, decide_eq_true_eq]
          exact ⟨⟨⟨hlo, ha⟩, hv⟩, htail⟩
  exact key m 0 (Nat.zero_le a) hm

/-- Placing bytes keeps the canonical form. -/
theorem Memory.place_wf (bs : List Byte) : ∀ (base : Nat) (m : Memory), Memory.wf m = true →
    Memory.wf (Memory.place base bs m) = true := by
  induction bs with
  | nil => intro _ _ h; exact h
  | cons b bs ih =>
    intro base m h
    refine ih (base + 1) _ ?_
    by_cases hb : base < Config.memorySize
    · rw [if_pos hb]; exact Memory.write_wf b hb h
    · rw [if_neg hb]; exact h

/-- What placed bytes read as: the byte at its offset inside memory, the old byte elsewhere. -/
theorem Memory.place_read (bs : List Byte) : ∀ (base : Nat) (m : Memory) (a : Nat), Memory.wf m = true →
    (Memory.place base bs m).read a =
      if base ≤ a ∧ a < base + bs.length ∧ a < Config.memorySize then bs.getD (a - base) 0 else m.read a := by
  induction bs with
  | nil =>
    intro base m a _
    have : ¬(base ≤ a ∧ a < base + ([] : List Byte).length ∧ a < Config.memorySize) := by
      intro h; have := h.2.1; simp at this; omega
    simp only [Memory.place, if_neg this]
  | cons b bs ih =>
    intro base m a h
    have hwf : Memory.wf (if base < Config.memorySize then Memory.write m base b else m) = true := by
      by_cases hb : base < Config.memorySize
      · rw [if_pos hb]; exact Memory.write_wf b hb h
      · rw [if_neg hb]; exact h
    rw [Memory.place, ih (base + 1) _ a hwf]
    by_cases ha : a = base
    · subst ha
      by_cases hb : a < Config.memorySize
      · have h1 : ¬(a + 1 ≤ a ∧ a < a + 1 + bs.length ∧ a < Config.memorySize) := by omega
        have h2 : a ≤ a ∧ a < a + (b :: bs).length ∧ a < Config.memorySize := ⟨le_refl _, by simp, hb⟩
        rw [if_neg h1, if_pos h2, if_pos hb, Memory.read_write_self m a b h]; simp
      · have h1 : ¬(a + 1 ≤ a ∧ a < a + 1 + bs.length ∧ a < Config.memorySize) := by omega
        have h2 : ¬(a ≤ a ∧ a < a + (b :: bs).length ∧ a < Config.memorySize) := fun h => hb h.2.2
        rw [if_neg h1, if_neg h2, if_neg hb]
    · have hr : (if base < Config.memorySize then Memory.write m base b else m).read a = m.read a := by
        by_cases hb : base < Config.memorySize
        · rw [if_pos hb]; exact Memory.read_write_ne m b ha
        · rw [if_neg hb]
      rw [hr]
      by_cases hin : base + 1 ≤ a ∧ a < base + 1 + bs.length ∧ a < Config.memorySize
      · have h2 : base ≤ a ∧ a < base + (b :: bs).length ∧ a < Config.memorySize :=
          ⟨by omega, by simp; omega, hin.2.2⟩
        obtain ⟨d, hd⟩ : ∃ d, a - base = d + 1 := ⟨a - base - 1, by omega⟩
        have hd' : a - (base + 1) = d := by omega
        rw [if_pos hin, if_pos h2, hd, hd']; simp
      · have h2 : ¬(base ≤ a ∧ a < base + (b :: bs).length ∧ a < Config.memorySize) := by
          intro h; apply hin; refine ⟨by omega, ?_, h.2.2⟩; have := h.2.1; simp at this; omega
        rw [if_neg hin, if_neg h2]

end Sys2Proof.Machine
end

