-- ==== Sys2Proof/Laws/State.lean ====
section
/-! SUPPORT. One lemma per field per update of the state, so that no proof unfolds a record update. -/

namespace Sys2Proof.Machine

variable (s : State)

@[simp] theorem State.setReg_x (r : Reg) (v : Byte) : (s.setReg r v).x = s.x.set r v := rfl
@[simp] theorem State.setReg_sp (r : Reg) (v : Byte) : (s.setReg r v).sp = s.sp := rfl
@[simp] theorem State.setReg_pc (r : Reg) (v : Byte) : (s.setReg r v).pc = s.pc := rfl
@[simp] theorem State.setReg_fl (r : Reg) (v : Byte) : (s.setReg r v).fl = s.fl := rfl
@[simp] theorem State.setReg_run (r : Reg) (v : Byte) : (s.setReg r v).run = s.run := rfl
@[simp] theorem State.setReg_fault (r : Reg) (v : Byte) : (s.setReg r v).fault = s.fault := rfl
@[simp] theorem State.setReg_mem (r : Reg) (v : Byte) : (s.setReg r v).mem = s.mem := rfl
@[simp] theorem State.setReg_prn (r : Reg) (v : Byte) : (s.setReg r v).prn = s.prn := rfl
@[simp] theorem State.setReg_diag (r : Reg) (v : Byte) : (s.setReg r v).diag = s.diag := rfl
@[simp] theorem State.setReg_policy (r : Reg) (v : Byte) : (s.setReg r v).policy = s.policy := rfl

@[simp] theorem State.setFlags_x (f : Flags) : (s.setFlags f).x = s.x := rfl
@[simp] theorem State.setFlags_sp (f : Flags) : (s.setFlags f).sp = s.sp := rfl
@[simp] theorem State.setFlags_pc (f : Flags) : (s.setFlags f).pc = s.pc := rfl
@[simp] theorem State.setFlags_fl (f : Flags) : (s.setFlags f).fl = f := rfl
@[simp] theorem State.setFlags_run (f : Flags) : (s.setFlags f).run = s.run := rfl
@[simp] theorem State.setFlags_fault (f : Flags) : (s.setFlags f).fault = s.fault := rfl
@[simp] theorem State.setFlags_mem (f : Flags) : (s.setFlags f).mem = s.mem := rfl
@[simp] theorem State.setFlags_prn (f : Flags) : (s.setFlags f).prn = s.prn := rfl
@[simp] theorem State.setFlags_diag (f : Flags) : (s.setFlags f).diag = s.diag := rfl
@[simp] theorem State.setFlags_policy (f : Flags) : (s.setFlags f).policy = s.policy := rfl

@[simp] theorem State.jumpTo_x (v : Byte) : (s.jumpTo v).x = s.x := rfl
@[simp] theorem State.jumpTo_sp (v : Byte) : (s.jumpTo v).sp = s.sp := rfl
@[simp] theorem State.jumpTo_pc (v : Byte) : (s.jumpTo v).pc = zext9 v := rfl
@[simp] theorem State.jumpTo_fl (v : Byte) : (s.jumpTo v).fl = s.fl := rfl
@[simp] theorem State.jumpTo_run (v : Byte) : (s.jumpTo v).run = s.run := rfl
@[simp] theorem State.jumpTo_fault (v : Byte) : (s.jumpTo v).fault = s.fault := rfl
@[simp] theorem State.jumpTo_mem (v : Byte) : (s.jumpTo v).mem = s.mem := rfl
@[simp] theorem State.jumpTo_prn (v : Byte) : (s.jumpTo v).prn = s.prn := rfl
@[simp] theorem State.jumpTo_diag (v : Byte) : (s.jumpTo v).diag = s.diag := rfl
@[simp] theorem State.jumpTo_policy (v : Byte) : (s.jumpTo v).policy = s.policy := rfl

@[simp] theorem State.advance_x (n : Nat) : (s.advance n).x = s.x := rfl
@[simp] theorem State.advance_sp (n : Nat) : (s.advance n).sp = s.sp := rfl
@[simp] theorem State.advance_pc (n : Nat) : (s.advance n).pc = s.pc + BitVec.ofNat 9 n := rfl
@[simp] theorem State.advance_fl (n : Nat) : (s.advance n).fl = s.fl := rfl
@[simp] theorem State.advance_run (n : Nat) : (s.advance n).run = s.run := rfl
@[simp] theorem State.advance_fault (n : Nat) : (s.advance n).fault = s.fault := rfl
@[simp] theorem State.advance_mem (n : Nat) : (s.advance n).mem = s.mem := rfl
@[simp] theorem State.advance_prn (n : Nat) : (s.advance n).prn = s.prn := rfl
@[simp] theorem State.advance_diag (n : Nat) : (s.advance n).diag = s.diag := rfl
@[simp] theorem State.advance_policy (n : Nat) : (s.advance n).policy = s.policy := rfl

@[simp] theorem State.emit_x (v : Byte) : (s.emit v).x = s.x := rfl
@[simp] theorem State.emit_sp (v : Byte) : (s.emit v).sp = s.sp := rfl
@[simp] theorem State.emit_pc (v : Byte) : (s.emit v).pc = s.pc := rfl
@[simp] theorem State.emit_fl (v : Byte) : (s.emit v).fl = s.fl := rfl
@[simp] theorem State.emit_run (v : Byte) : (s.emit v).run = s.run := rfl
@[simp] theorem State.emit_fault (v : Byte) : (s.emit v).fault = s.fault := rfl
@[simp] theorem State.emit_mem (v : Byte) : (s.emit v).mem = s.mem := rfl
@[simp] theorem State.emit_prn (v : Byte) : (s.emit v).prn = s.prn ++ [v] := rfl
@[simp] theorem State.emit_diag (v : Byte) : (s.emit v).diag = s.diag := rfl
@[simp] theorem State.emit_policy (v : Byte) : (s.emit v).policy = s.policy := rfl

@[simp] theorem State.diagnose_x (p : Pc) (op : Byte) : (s.diagnose p op).x = s.x := rfl
@[simp] theorem State.diagnose_sp (p : Pc) (op : Byte) : (s.diagnose p op).sp = s.sp := rfl
@[simp] theorem State.diagnose_pc (p : Pc) (op : Byte) : (s.diagnose p op).pc = s.pc := rfl
@[simp] theorem State.diagnose_fl (p : Pc) (op : Byte) : (s.diagnose p op).fl = s.fl := rfl
@[simp] theorem State.diagnose_run (p : Pc) (op : Byte) : (s.diagnose p op).run = s.run := rfl
@[simp] theorem State.diagnose_fault (p : Pc) (op : Byte) : (s.diagnose p op).fault = s.fault := rfl
@[simp] theorem State.diagnose_mem (p : Pc) (op : Byte) : (s.diagnose p op).mem = s.mem := rfl
@[simp] theorem State.diagnose_prn (p : Pc) (op : Byte) : (s.diagnose p op).prn = s.prn := rfl
@[simp] theorem State.diagnose_diag (p : Pc) (op : Byte) : (s.diagnose p op).diag = s.diag ++ [⟨p, op⟩] := rfl
@[simp] theorem State.diagnose_policy (p : Pc) (op : Byte) : (s.diagnose p op).policy = s.policy := rfl

@[simp] theorem State.halt_x : (s.halt).x = s.x := rfl
@[simp] theorem State.halt_sp : (s.halt).sp = s.sp := rfl
@[simp] theorem State.halt_pc : (s.halt).pc = s.pc := rfl
@[simp] theorem State.halt_fl : (s.halt).fl = s.fl := rfl
@[simp] theorem State.halt_run : (s.halt).run = .halted := rfl
@[simp] theorem State.halt_fault : (s.halt).fault = s.fault := rfl
@[simp] theorem State.halt_mem : (s.halt).mem = s.mem := rfl
@[simp] theorem State.halt_prn : (s.halt).prn = s.prn := rfl
@[simp] theorem State.halt_diag : (s.halt).diag = s.diag := rfl
@[simp] theorem State.halt_policy : (s.halt).policy = s.policy := rfl

@[simp] theorem State.raise_x (r : Raised) : (s.raise r).x = s.x := rfl
@[simp] theorem State.raise_sp (r : Raised) : (s.raise r).sp = s.sp := rfl
@[simp] theorem State.raise_pc (r : Raised) : (s.raise r).pc = s.pc := rfl
@[simp] theorem State.raise_fl (r : Raised) : (s.raise r).fl = s.fl := rfl
@[simp] theorem State.raise_run (r : Raised) : (s.raise r).run = .faulted := rfl
@[simp] theorem State.raise_fault (r : Raised) : (s.raise r).fault = some ⟨r.cause, s.pc, s.readAhead s.pc.toNat, s.readAhead (s.pc.toNat + 1), s.readAhead (s.pc.toNat + 2), r.info⟩ := rfl
@[simp] theorem State.raise_mem (r : Raised) : (s.raise r).mem = s.mem := rfl
@[simp] theorem State.raise_prn (r : Raised) : (s.raise r).prn = s.prn := rfl
@[simp] theorem State.raise_diag (r : Raised) : (s.raise r).diag = s.diag := rfl
@[simp] theorem State.raise_policy (r : Raised) : (s.raise r).policy = s.policy := rfl

@[simp] theorem State.writeBack_result (r : Reg) (v : Byte) : s.writeBack r (.result v) = s.setReg r v := rfl
@[simp] theorem State.writeBack_flags (r : Reg) (f : Flags) : s.writeBack r (.flags f) = s.setFlags f := rfl

/-- A register holds what was written to it. -/
@[simp] theorem State.setReg_reg_self (r : Reg) (v : Byte) : (s.setReg r v).reg r = v := by
  simp [State.reg]

/-- A write to one register leaves the others alone. -/
theorem State.setReg_reg_ne {r q : Reg} (h : q ≠ r) (v : Byte) : (s.setReg r v).reg q = s.reg q := by
  have : r.val ≠ q.val := fun e => h (Fin.ext e.symm)
  simp [State.reg, this]

@[simp] theorem State.setReg_readByte (r : Reg) (v : Byte) (k : Nat) : (s.setReg r v).readByte k = s.readByte k := rfl
@[simp] theorem State.setReg_readAhead (r : Reg) (v : Byte) (k : Nat) : (s.setReg r v).readAhead k = s.readAhead k := rfl
@[simp] theorem State.setFlags_reg (f : Flags) (q : Reg) : (s.setFlags f).reg q = s.reg q := rfl
@[simp] theorem State.setFlags_readByte (f : Flags) (k : Nat) : (s.setFlags f).readByte k = s.readByte k := rfl
@[simp] theorem State.setFlags_readAhead (f : Flags) (k : Nat) : (s.setFlags f).readAhead k = s.readAhead k := rfl
@[simp] theorem State.jumpTo_reg (v : Byte) (q : Reg) : (s.jumpTo v).reg q = s.reg q := rfl
@[simp] theorem State.jumpTo_readByte (v : Byte) (k : Nat) : (s.jumpTo v).readByte k = s.readByte k := rfl
@[simp] theorem State.jumpTo_readAhead (v : Byte) (k : Nat) : (s.jumpTo v).readAhead k = s.readAhead k := rfl
@[simp] theorem State.advance_reg (n : Nat) (q : Reg) : (s.advance n).reg q = s.reg q := rfl
@[simp] theorem State.advance_readByte (n : Nat) (k : Nat) : (s.advance n).readByte k = s.readByte k := rfl
@[simp] theorem State.advance_readAhead (n : Nat) (k : Nat) : (s.advance n).readAhead k = s.readAhead k := rfl
@[simp] theorem State.emit_reg (v : Byte) (q : Reg) : (s.emit v).reg q = s.reg q := rfl
@[simp] theorem State.emit_readByte (v : Byte) (k : Nat) : (s.emit v).readByte k = s.readByte k := rfl
@[simp] theorem State.emit_readAhead (v : Byte) (k : Nat) : (s.emit v).readAhead k = s.readAhead k := rfl
@[simp] theorem State.diagnose_reg (p : Pc) (op : Byte) (q : Reg) : (s.diagnose p op).reg q = s.reg q := rfl
@[simp] theorem State.diagnose_readByte (p : Pc) (op : Byte) (k : Nat) : (s.diagnose p op).readByte k = s.readByte k := rfl
@[simp] theorem State.diagnose_readAhead (p : Pc) (op : Byte) (k : Nat) : (s.diagnose p op).readAhead k = s.readAhead k := rfl
@[simp] theorem State.halt_reg (q : Reg) : (s.halt).reg q = s.reg q := rfl
@[simp] theorem State.halt_readByte (k : Nat) : (s.halt).readByte k = s.readByte k := rfl
@[simp] theorem State.halt_readAhead (k : Nat) : (s.halt).readAhead k = s.readAhead k := rfl
@[simp] theorem State.raise_reg (r : Raised) (q : Reg) : (s.raise r).reg q = s.reg q := rfl
@[simp] theorem State.raise_readByte (r : Raised) (k : Nat) : (s.raise r).readByte k = s.readByte k := rfl
@[simp] theorem State.raise_readAhead (r : Raised) (k : Nat) : (s.raise r).readAhead k = s.readAhead k := rfl

end Sys2Proof.Machine
end

