-- ==== Sys2Proof/Laws/Ops.lean ====
section
/-! SUPPORT. One lemma per shared operation: what it answers and under which condition. -/

namespace Sys2Proof.Machine

variable {s t : State}

/-- The byte of a register's index reads back as that index. -/
theorem regByte_toNat (r : Reg) : (regByte r).toNat = r.val := by
  have := r.isLt
  simp [regByte]; omega

/-- A register operand that names a register. -/
@[simp] theorem regOperand_regByte (r : Reg) : regOperand (regByte r) = .ok r := by
  have h : (regByte r).toNat < 8 := by rw [regByte_toNat]; exact r.isLt
  simp [regOperand, regByte_toNat]

/-- A register operand 8 to 255 raises InvalidRegister. -/
theorem regOperand_bad {b : Byte} (h : 8 ≤ b.toNat) : regOperand b = .error ⟨.invalidRegister, .operand b⟩ := by
  have : ¬ b.toNat < 8 := by omega
  simp [regOperand, this]

/-- Every valid operand byte is the byte of a register. -/
theorem eq_regByte {b : Byte} (h : b.toNat < 8) : b = regByte ⟨b.toNat, h⟩ := by
  apply BitVec.eq_of_toNat_eq; rw [regByte_toNat]

/-- What the register operand check answers. -/
theorem regOperand_cases (b : Byte) :
    (∃ r, b = regByte r ∧ regOperand b = .ok r) ∨
    (8 ≤ b.toNat ∧ regOperand b = .error ⟨.invalidRegister, .operand b⟩) := by
  by_cases h : b.toNat < 8
  · exact .inl ⟨⟨b.toNat, h⟩, eq_regByte h, by simp [regOperand, h]⟩
  · exact .inr ⟨by omega, regOperand_bad (by omega)⟩

/-- The two bytes name the same register only if the registers are the same. -/
theorem regByte_inj {r q : Reg} (h : regByte r = regByte q) : r = q := by
  apply Fin.ext; rw [← regByte_toNat, ← regByte_toNat, h]

/-- Commit answers the handler's state, or the fault taken on the state before the step. -/
theorem commit_cases {h : Except Raised State} (e : commit s h = .next t) :
    h = .ok t ∨ ∃ r, h = .error r ∧ t = s.raise r := by
  cases h with
  | ok u => simp only [commit, Host.Outcome.next.injEq] at e; exact .inl (by rw [e])
  | error r => simp only [commit, Host.Outcome.next.injEq] at e; exact .inr ⟨r, rfl, e.symm⟩

@[simp] theorem commit_ok (s t : State) : commit s (.ok t) = .next t := rfl
@[simp] theorem commit_error (s : State) (r : Raised) : commit s (.error r) = .next (s.raise r) := rfl

/-- Commit always answers a next state: taking a fault is one (R127). -/
theorem commit_isNext (s : State) (h : Except Raised State) : ∃ t, commit s h = .next t := by
  cases h with
  | ok t => exact ⟨t, rfl⟩
  | error r => exact ⟨s.raise r, rfl⟩

section Formats
variable (s) (a b : Byte) (ra rb : Reg)

/-- Format `R` with a register. -/
@[simp] theorem runR_valid (h : Reg → State → Except Raised State) :
    runR s (regByte ra) h = commit s (h ra (s.advance 2)) := by simp [runR]

/-- Format `RR` with two registers. -/
@[simp] theorem runRR_valid (h : Reg → Reg → State → Except Raised State) :
    runRR s (regByte ra) (regByte rb) h = commit s (h ra rb (s.advance 3)) := by simp [runRR]

/-- Format `RI` with a register. -/
@[simp] theorem runRI_valid (h : Reg → Byte → State → Except Raised State) :
    runRI s (regByte ra) b h = commit s (h ra b (s.advance 3)) := by simp [runRI]

variable {a b}

/-- Format `R` with a byte that names no register. -/
theorem runR_bad (ha : 8 ≤ a.toNat) (h : Reg → State → Except Raised State) :
    runR s a h = .next (s.raise ⟨.invalidRegister, .operand a⟩) := by simp [runR, regOperand_bad ha]

/-- Format `RR` with a first byte that names no register. -/
theorem runRR_bad_first (ha : 8 ≤ a.toNat) (h : Reg → Reg → State → Except Raised State) :
    runRR s a b h = .next (s.raise ⟨.invalidRegister, .operand a⟩) := by simp [runRR, regOperand_bad ha]

/-- Format `RR` with a first register and a second byte that names none. -/
theorem runRR_bad_second (hb : 8 ≤ b.toNat) (h : Reg → Reg → State → Except Raised State) :
    runRR s (regByte ra) b h = .next (s.raise ⟨.invalidRegister, .operand b⟩) := by
  simp [runRR, regOperand_bad hb]

/-- Format `RI` with a byte that names no register. -/
theorem runRI_bad (ha : 8 ≤ a.toNat) (h : Reg → Byte → State → Except Raised State) :
    runRI s a b h = .next (s.raise ⟨.invalidRegister, .operand a⟩) := by simp [runRI, regOperand_bad ha]

end Formats

/-- What format `R` can answer. -/
theorem runR_cases {a : Byte} {h : Reg → State → Except Raised State} (e : runR s a h = .next t) :
    (∃ ra, a = regByte ra ∧ commit s (h ra (s.advance 2)) = .next t) ∨
    (8 ≤ a.toNat ∧ t = s.raise ⟨.invalidRegister, .operand a⟩) := by
  rcases regOperand_cases a with ⟨ra, rfl, -⟩ | ⟨ha, -⟩
  · exact .inl ⟨ra, rfl, by simpa using e⟩
  · rw [runR_bad s ha, Host.Outcome.next.injEq] at e; exact .inr ⟨ha, e.symm⟩

/-- What format `RI` can answer. -/
theorem runRI_cases {a b : Byte} {h : Reg → Byte → State → Except Raised State} (e : runRI s a b h = .next t) :
    (∃ ra, a = regByte ra ∧ commit s (h ra b (s.advance 3)) = .next t) ∨
    (8 ≤ a.toNat ∧ t = s.raise ⟨.invalidRegister, .operand a⟩) := by
  rcases regOperand_cases a with ⟨ra, rfl, -⟩ | ⟨ha, -⟩
  · exact .inl ⟨ra, rfl, by simpa using e⟩
  · rw [runRI_bad s ha, Host.Outcome.next.injEq] at e; exact .inr ⟨ha, e.symm⟩

/-- What format `RR` can answer. -/
theorem runRR_cases {a b : Byte} {h : Reg → Reg → State → Except Raised State} (e : runRR s a b h = .next t) :
    (∃ ra rb, a = regByte ra ∧ b = regByte rb ∧ commit s (h ra rb (s.advance 3)) = .next t) ∨
    (∃ v : Byte, 8 ≤ v.toNat ∧ t = s.raise ⟨.invalidRegister, .operand v⟩) := by
  rcases regOperand_cases a with ⟨ra, rfl, -⟩ | ⟨ha, -⟩
  · rcases regOperand_cases b with ⟨rb, rfl, -⟩ | ⟨hb, -⟩
    · exact .inl ⟨ra, rb, rfl, rfl, by simpa using e⟩
    · rw [runRR_bad_second s ra hb, Host.Outcome.next.injEq] at e; exact .inr ⟨b, hb, e.symm⟩
  · rw [runRR_bad_first s ha, Host.Outcome.next.injEq] at e; exact .inr ⟨a, ha, e.symm⟩

/-- The cell a push stores to is inside memory. -/
theorem byte_lt_memorySize (b : Byte) : b.toNat < Config.memorySize := b.isLt

/-- A read at a byte's address is inside memory. -/
@[simp] theorem memRead_byte (s : State) (b : Byte) : s.memRead b.toNat = .ok (s.readByte b.toNat) :=
  if_pos (byte_lt_memorySize b)

/-- A push stores at `sp - 1` where `sp` is not 0. -/
theorem pushSlot_ok (h : s.sp ≠ 0#8) : s.pushSlot = .ok (s.sp - 1#8) := if_neg h

/-- A push raises where `sp` is 0. -/
theorem pushSlot_error (h : s.sp = 0#8) : s.pushSlot = .error (outOfBoundsAt (-1)) := if_pos h

@[simp] theorem advance_pushSlot (s : State) (n : Nat) : (s.advance n).pushSlot = s.pushSlot := rfl

/-- A push where `sp` is not 0 (R105). -/
theorem push_ok (v : Byte) (h : s.sp ≠ 0#8) :
    s.push v = .ok { s with sp := s.sp - 1#8, mem := s.mem.write (s.sp - 1#8).toNat v } := by
  simp only [State.push, pushSlot_ok h, State.memWrite, if_pos (byte_lt_memorySize _)]

/-- A push where `sp` is 0 (R19, R105). -/
theorem push_error (v : Byte) (h : s.sp = 0#8) : s.push v = .error (outOfBoundsAt (-1)) := by
  simp only [State.push, pushSlot_error h]

/-- What a push can answer. -/
theorem push_cases (s : State) (v : Byte) :
    (s.sp ≠ 0#8 ∧ s.push v = .ok { s with sp := s.sp - 1#8, mem := s.mem.write (s.sp - 1#8).toNat v }) ∨
    (s.sp = 0#8 ∧ s.push v = .error (outOfBoundsAt (-1))) := by
  by_cases h : s.sp = 0#8
  · exact .inr ⟨h, push_error v h⟩
  · exact .inl ⟨h, push_ok v h⟩

/-- A pop where `sp` is not 255 (R106). -/
theorem pop_ok (h : s.sp ≠ 255#8) : s.pop = .ok (s.readByte s.sp.toNat, { s with sp := s.sp + 1#8 }) := by
  simp only [State.pop, if_neg h, memRead_byte]

/-- A pop where `sp` is 255 (R19, R106). -/
theorem pop_error (h : s.sp = 255#8) : s.pop = .error (outOfBoundsAt 256) := by
  simp only [State.pop, if_pos h]; rfl

/-- What a pop can answer. -/
theorem pop_cases (s : State) :
    (s.sp ≠ 255#8 ∧ s.pop = .ok (s.readByte s.sp.toNat, { s with sp := s.sp + 1#8 })) ∨
    (s.sp = 255#8 ∧ s.pop = .error (outOfBoundsAt 256)) := by
  by_cases h : s.sp = 255#8
  · exact .inr ⟨h, pop_error h⟩
  · exact .inl ⟨h, pop_ok h⟩

/-- A return address that fits a byte (R110). -/
theorem returnByte_ok {n : Nat} (h : n < 256) : returnByte n = .ok (BitVec.ofNat 8 n) := if_pos h

/-- A return address that does not (R110; decision D10). -/
theorem returnByte_error {n : Nat} (h : 256 ≤ n) : returnByte n = .error (outOfBoundsAt n) :=
  if_neg (by simpa using h)

/-- The wrapped sum (R91). -/
theorem trunc8_add (x y : Byte) : trunc8 ((x.toNat : Int) + y.toNat) = x + y := by
  apply BitVec.eq_of_toNat_eq; simp [trunc8, BitVec.toNat_ofInt]; omega

/-- The wrapped difference (R91). -/
theorem trunc8_sub (x y : Byte) : trunc8 ((x.toNat : Int) - y.toNat) = x - y := by
  apply BitVec.eq_of_toNat_eq; simp [trunc8, BitVec.toNat_ofInt, BitVec.toNat_sub]; omega

/-- The wrapped product (R91). -/
theorem trunc8_mul (x y : Byte) : trunc8 ((x.toNat : Int) * y.toNat) = x * y := by
  apply BitVec.eq_of_toNat_eq
  simp only [trunc8, BitVec.toNat_ofInt, BitVec.toNat_mul]
  norm_cast

/-- What the ALU answers for each of its tags (R90). -/
theorem alu_add (x y : Byte) : alu .add x y = .ok (.result (x + y)) := by rw [alu, trunc8_add]
theorem alu_sub (x y : Byte) : alu .sub x y = .ok (.result (x - y)) := by rw [alu, trunc8_sub]
theorem alu_mul (x y : Byte) : alu .mul x y = .ok (.result (x * y)) := by rw [alu, trunc8_mul]
theorem alu_and (x y : Byte) : alu .and x y = .ok (.result (x &&& y)) := rfl
theorem alu_cmp (x y : Byte) : alu .cmp x y = .ok (.flags (compareFlags x y)) := rfl
theorem alu_div_ok (x : Byte) {y : Byte} (h : y ≠ 0#8) : alu .div x y = .ok (.result (x / y)) := by
  have : BitVec.ofNat 8 (x.toNat / y.toNat) = x / y := by
    apply BitVec.eq_of_toNat_eq
    have hq : x.toNat / y.toNat < 2 ^ 8 := Nat.lt_of_le_of_lt (Nat.div_le_self _ _) x.isLt
    rw [BitVec.toNat_ofNat, BitVec.toNat_udiv, Nat.mod_eq_of_lt hq]
  rw [alu, if_neg h, this]
theorem alu_div_zero (x : Byte) : alu .div x 0#8 = .error ⟨.divisionByZero, .nothing⟩ := rfl

/-- A comparison leaves one of the three states a compare produces (R20, R99). -/
theorem compareFlags_legal (x y : Byte) : legalFlags (compareFlags x y) = true := by
  rw [compareFlags]
  split
  · rfl
  · split <;> rfl

end Sys2Proof.Machine
end

