-- ==== Sys2Proof/Laws/Step.lean ====
section
/-! SUPPORT. What a step can do, said once. -/

namespace Sys2Proof.Machine

variable {s t : State}

/-- A step of a running machine. -/
theorem step_running (h : s.run = .running) : step s = stepRunning s := by simp [step, h]

/-- A halted machine has no step (R70). -/
theorem step_halted (h : s.run = .halted) : step s = .fault .halted := by simp [step, h]

/-- A faulted machine has no step (R70). -/
theorem step_faulted (h : s.run = .faulted) : step s = .fault .faulted := by simp [step, h]

/-- Every meaning answers a next state: taking a fault is one (R127). -/
theorem exec_isNext (i : Instr) (s : State) : ∃ t, exec i s = .next t := by
  cases i with
  | hlt => exact ⟨_, rfl⟩
  | _ => exact commit_isNext _ _

/-- An opcode fetch inside memory, with its read-ahead (R71, R72). -/
theorem fetch_ok (h : s.pc.toNat < 256) :
    fetch s = .ok ⟨s.readByte s.pc.toNat, s.readAhead (s.pc.toNat + 1), s.readAhead (s.pc.toNat + 2)⟩ := by
  simp [fetch, State.memRead, h]

/-- An opcode fetch beyond memory (R71). -/
theorem fetch_error (h : 256 ≤ s.pc.toNat) : fetch s = .error (outOfBoundsAt s.pc.toNat) := by
  have : ¬ s.pc.toNat < 256 := by omega
  simp [fetch, State.memRead, this]

/-- The read-ahead inside memory (R72). -/
theorem readAhead_some {a : Nat} (h : a < 256) : s.readAhead a = some (s.readByte a) := if_pos h

/-- The read-ahead beyond memory is skipped (R72). -/
theorem readAhead_none {a : Nat} (h : 256 ≤ a) : s.readAhead a = none :=
  if_neg (by simpa using h)

/-- The read-ahead is skipped only beyond memory (R72). -/
theorem readAhead_eq_none {a : Nat} : s.readAhead a = none ↔ 256 ≤ a := by
  by_cases h : a < 256
  · simp [readAhead_some h, h]
  · simp [readAhead_none (s := s) (by omega : 256 ≤ a)]; omega

/-- The step inside memory is the decoder's answer. -/
theorem step_inside (hr : s.run = .running) (h : s.pc.toNat < 256) :
    step s =
      match decode (s.readByte s.pc.toNat) (s.readAhead (s.pc.toNat + 1)) (s.readAhead (s.pc.toNat + 2)) with
      | .error e => decodeFailure e s
      | .ok i => exec i s := by
  rw [step_running hr, stepRunning, fetch_ok h] <;> rfl

/-- The step beyond memory raises OutOfBounds (R71). -/
theorem step_outside (hr : s.run = .running) (h : 256 ≤ s.pc.toNat) :
    step s = .next (s.raise (outOfBoundsAt s.pc.toNat)) := by
  rw [step_running hr, stepRunning, fetch_error h]

/-- All that a step can do, in the order of its phases (R82): it raises at the fetch; it meets an unknown opcode, under
`skip` or under `fault`; it raises for a missing operand byte; or it runs a decoded instruction. -/
theorem step_cases (e : step s = .next t) :
    s.run = .running ∧
    ((256 ≤ s.pc.toNat ∧ t = s.raise (outOfBoundsAt s.pc.toNat)) ∨
     (s.pc.toNat < 256 ∧ lookup (s.readByte s.pc.toNat) = none ∧ s.policy = .skip ∧
       t = (s.diagnose s.pc (s.readByte s.pc.toNat)).advance 1) ∨
     (s.pc.toNat < 256 ∧ lookup (s.readByte s.pc.toNat) = none ∧ s.policy = .fault ∧
       t = s.raise ⟨.unknownOpcode, .opcode (s.readByte s.pc.toNat)⟩) ∨
     (s.pc.toNat < 256 ∧ ∃ m, lookup (s.readByte s.pc.toNat) = some m ∧ 1 ≤ m.arity ∧ 256 ≤ s.pc.toNat + m.arity ∧
       t = s.raise (outOfBoundsAt 256)) ∨
     (∃ i : Instr, s.pc.toNat + i.mnemonic.arity < 256 ∧ lookup (s.readByte s.pc.toNat) = some i.mnemonic ∧
       decode (s.readByte s.pc.toNat) (s.readAhead (s.pc.toNat + 1)) (s.readAhead (s.pc.toNat + 2)) = .ok i ∧
       exec i s = .next t)) := by
  cases hr : s.run with
  | halted => rw [step_halted hr] at e; cases e
  | faulted => rw [step_faulted hr] at e; cases e
  | running =>
    refine ⟨rfl, ?_⟩
    by_cases hp : s.pc.toNat < 256
    swap
    · rw [step_outside hr (by omega), Host.Outcome.next.injEq] at e
      exact .inl ⟨by omega, e.symm⟩
    rw [step_inside hr hp] at e
    rcases decode_cases (s.readByte s.pc.toNat) (s.readAhead (s.pc.toNat + 1)) (s.readAhead (s.pc.toNat + 2)) with
      ⟨hl, hd⟩ | ⟨m, hl, ⟨ha, hn, hd⟩ | ⟨ha, hs, hn, hd⟩ | ⟨-, -, hd⟩⟩
    · simp only [hd, decodeFailure, unknownOpcode] at e
      cases hpol : s.policy <;> simp only [hpol, Host.Outcome.next.injEq] at e
      · exact .inr (.inl ⟨hp, hl, rfl, e.symm⟩)
      · exact .inr (.inr (.inl ⟨hp, hl, rfl, e.symm⟩))
    · simp only [hd, decodeFailure, Host.Outcome.next.injEq] at e
      rw [readAhead_eq_none] at hn
      have : s.pc.toNat + 1 = 256 := by omega
      refine .inr (.inr (.inr (.inl ⟨hp, m, hl, ha, by omega, ?_⟩)))
      rw [← e, this]; rfl
    · simp only [hd, decodeFailure, Host.Outcome.next.injEq] at e
      rw [readAhead_eq_none] at hn
      rw [Ne, readAhead_eq_none] at hs
      have : s.pc.toNat + 2 = 256 := by omega
      refine .inr (.inr (.inr (.inl ⟨hp, m, hl, by omega, by omega, ?_⟩)))
      rw [← e, this]; rfl
    · rw [hd] at e
      obtain ⟨h0, h1, h2⟩ := decode_ok hd
      refine .inr (.inr (.inr (.inr ⟨_, ?_, h0, hd, e⟩)))
      rw [Ne, readAhead_eq_none] at h1 h2
      rcases arity_cases (m.build ((s.readAhead (s.pc.toNat + 1)).getD 0)
        ((s.readAhead (s.pc.toNat + 2)).getD 0)).mnemonic with h | h | h
      · omega
      · have := h1 (by omega); omega
      · have := h2 h; omega

/-- The bytes at an address, one by one. -/
theorem bytesAt_cons {a : Nat} {b : Byte} {bs : List Byte} :
    s.bytesAt a (b :: bs) = true ↔ a < 256 ∧ s.readByte a = b ∧ s.bytesAt (a + 1) bs = true := by
  simp [State.bytesAt, and_assoc]

@[simp] theorem bytesAt_nil {a : Nat} : s.bytesAt a [] = true := rfl

end Sys2Proof.Machine
end

