-- ==== Sys2Proof/Laws/Exec.lean ====
section
/-! SUPPORT. The meanings as equations over the shared operations, and what any meaning can do about faults. -/

namespace Sys2Proof.Machine

variable {s t : State}

theorem exec_ldi (a imm : Byte) (s : State) :
    exec (.ldi a imm) s = runRI s a imm fun ra v t => .ok (t.setReg ra v) := rfl
theorem exec_add (a b : Byte) (s : State) :
    exec (.add a b) s = runRR s a b fun ra rb t => .ok (t.setReg ra (t.reg ra + t.reg rb)) := by
  simp only [exec, execAdd, handleAlu, alu_add]; rfl
theorem exec_mul (a b : Byte) (s : State) :
    exec (.mul a b) s = runRR s a b fun ra rb t => .ok (t.setReg ra (t.reg ra * t.reg rb)) := by
  simp only [exec, execMul, handleAlu, alu_mul]; rfl
theorem exec_div (a b : Byte) (s : State) :
    exec (.div a b) s = runRR s a b fun ra rb t =>
      if t.reg rb = 0#8 then .error ⟨.divisionByZero, .nothing⟩ else .ok (t.setReg ra (t.reg ra / t.reg rb)) := by
  have key : ∀ (ra rb : Reg) (t : State), handleAlu .div ra (t.reg ra) (t.reg rb) t =
      if t.reg rb = 0#8 then .error ⟨.divisionByZero, .nothing⟩ else .ok (t.setReg ra (t.reg ra / t.reg rb)) := by
    intro ra rb t
    by_cases h : t.reg rb = 0#8
    · simp [handleAlu, h, alu_div_zero]
    · simp [handleAlu, h, alu_div_ok _ h]
  simp only [exec, execDiv, key]
theorem exec_and (a b : Byte) (s : State) :
    exec (.and a b) s = runRR s a b fun ra rb t => .ok (t.setReg ra (t.reg ra &&& t.reg rb)) := by
  simp only [exec, execAnd, handleAlu, alu_and]; rfl
theorem exec_inc (a : Byte) (s : State) :
    exec (.inc a) s = runR s a fun ra t => .ok (t.setReg ra (t.reg ra + 1#8)) := by
  simp only [exec, execInc, handleAlu, alu_add]; rfl
theorem exec_dec (a : Byte) (s : State) :
    exec (.dec a) s = runR s a fun ra t => .ok (t.setReg ra (t.reg ra - 1#8)) := by
  simp only [exec, execDec, handleAlu, alu_sub]; rfl
theorem exec_cmp (a b : Byte) (s : State) :
    exec (.cmp a b) s = runRR s a b fun ra rb t => .ok (t.setFlags (compareFlags (t.reg ra) (t.reg rb))) := rfl
theorem exec_prn (a : Byte) (s : State) :
    exec (.prn a) s = runR s a fun ra t => .ok (t.emit (t.reg ra)) := rfl
theorem exec_push (a : Byte) (s : State) :
    exec (.push a) s = runR s a fun ra t => t.push (t.reg ra) := rfl
theorem exec_pop (a : Byte) (s : State) :
    exec (.pop a) s = runR s a fun ra t =>
      match t.pop with
      | .error r => .error r
      | .ok (v, u) => .ok (u.setReg ra v) := rfl
theorem exec_call (a : Byte) (s : State) :
    exec (.call a) s = runR s a fun ra t =>
      match returnByte t.pc.toNat with
      | .error r => .error r
      | .ok ret =>
        match t.push ret with
        | .error r => .error r
        | .ok u => .ok (u.jumpTo (t.reg ra)) := rfl
theorem exec_ret (s : State) :
    exec .ret s = commit s
      (match (s.advance 1).pop with
       | .error r => .error r
       | .ok (v, u) => .ok (u.jumpTo v)) := rfl
theorem exec_jmp (a : Byte) (s : State) :
    exec (.jmp a) s = runR s a fun ra t => .ok (t.jumpTo (t.reg ra)) := rfl
theorem exec_jeq (a : Byte) (s : State) :
    exec (.jeq a) s = runR s a fun ra t => .ok (if flagE t.fl then t.jumpTo (t.reg ra) else t) := rfl
theorem exec_hlt (s : State) : exec .hlt s = .next ((s.advance 1).halt) := rfl

/-- The address after an instruction inside memory, as an integer (R77). -/
theorem advance_pc_toNat {n : Nat} (h : s.pc.toNat + n ≤ 256) : (s.advance n).pc.toNat = s.pc.toNat + n := by
  simp [BitVec.toNat_add]; omega

/-- What any meaning can do about faults: it raises, with an `info` that fits its cause wherever the instruction lies inside
memory, and never UnsupportedALUOp; or it leaves the fault record alone, and `run` too unless it is HLT. -/
theorem exec_raises_or_keeps {i : Instr} (e : exec i s = .next t) :
    (∃ r, t = s.raise r ∧ r.cause ≠ .unsupportedAluOp ∧
      (s.pc.toNat + i.mnemonic.arity < 256 → infoFits r.cause r.info = true)) ∨
    (t.fault = s.fault ∧ (t.run = s.run ∨ i = .hlt ∧ t.run = .halted)) := by
  cases i
  case hlt => cases e; exact .inr ⟨rfl, .inr ⟨rfl, rfl⟩⟩
  case ret =>
    rw [exec_ret] at e
    rcases pop_cases (s.advance 1) with ⟨-, hp⟩ | ⟨-, hp⟩ <;> rw [hp] at e <;> cases e
    · exact .inr ⟨rfl, .inl rfl⟩
    · exact .inl ⟨_, rfl, by simp [outOfBoundsAt], by simp [infoFits, outOfBoundsAt]⟩
  case ldi a imm =>
    rw [exec_ldi] at e
    rcases runRI_cases e with ⟨ra, rfl, he⟩ | ⟨h, rfl⟩
    · cases he; exact .inr ⟨rfl, .inl rfl⟩
    · exact .inl ⟨_, rfl, by simp, by simp [infoFits, h]⟩
  case add | mul | div | and | cmp =>
    first
      | rw [exec_add] at e | rw [exec_mul] at e | rw [exec_div] at e | rw [exec_and] at e | rw [exec_cmp] at e
    rcases runRR_cases e with ⟨ra, rb, rfl, rfl, he⟩ | ⟨v, h, rfl⟩
    · first
        | (cases he; exact .inr ⟨rfl, .inl rfl⟩)
        | (split at he <;> cases he
           · exact .inl ⟨_, rfl, by simp, by simp [infoFits]⟩
           · exact .inr ⟨rfl, .inl rfl⟩)
    · exact .inl ⟨_, rfl, by simp, by simp [infoFits, h]⟩
  all_goals
    first
      | rw [exec_inc] at e | rw [exec_dec] at e | rw [exec_prn] at e | rw [exec_push] at e | rw [exec_pop] at e
      | rw [exec_call] at e | rw [exec_jmp] at e | rw [exec_jeq] at e
    rcases runR_cases e with ⟨ra, rfl, he⟩ | ⟨h, rfl⟩
    swap
    · exact .inl ⟨_, rfl, by simp, by simp [infoFits, h]⟩
  case inc | dec | prn | jmp => cases he; exact .inr ⟨rfl, .inl rfl⟩
  case jeq => cases he; split <;> exact .inr ⟨rfl, .inl rfl⟩
  case push =>
    rcases push_cases (s.advance 2) ((s.advance 2).reg ra) with ⟨-, hp⟩ | ⟨-, hp⟩ <;> rw [hp] at he <;> cases he
    · exact .inr ⟨rfl, .inl rfl⟩
    · exact .inl ⟨_, rfl, by simp [outOfBoundsAt], by simp [infoFits, outOfBoundsAt]⟩
  case pop =>
    rcases pop_cases (s.advance 2) with ⟨-, hp⟩ | ⟨-, hp⟩ <;> rw [hp] at he <;> cases he
    · exact .inr ⟨rfl, .inl rfl⟩
    · exact .inl ⟨_, rfl, by simp [outOfBoundsAt], by simp [infoFits, outOfBoundsAt]⟩
  case call =>
    by_cases hret : (s.advance 2).pc.toNat < 256
    · rw [returnByte_ok hret] at he
      rcases push_cases (s.advance 2) (BitVec.ofNat 8 (s.advance 2).pc.toNat) with ⟨-, hp⟩ | ⟨-, hp⟩ <;>
        simp only [hp] at he <;> cases he
      · exact .inr ⟨rfl, .inl rfl⟩
      · exact .inl ⟨_, rfl, by simp [outOfBoundsAt], by simp [infoFits, outOfBoundsAt]⟩
    · rw [returnByte_error (by omega)] at he
      cases he
      refine .inl ⟨_, rfl, by simp [outOfBoundsAt], fun h => ?_⟩
      have h1 : s.pc.toNat + 1 < 256 := h
      have h2 : (s.advance 2).pc.toNat = 256 := by
        have := advance_pc_toNat (s := s) (n := 2) (by omega); omega
      rw [h2]; rfl

end Sys2Proof.Machine
end

