-- ==== Sys2Proof/Laws/PerInstr.lean ====
section
/-! SUPPORT. A fact about each instruction as syntax, one lemma per constructor: its encoding has as many bytes as its
length says, and that is 1, 2 or 3 (spec/30_encoding.md R55, R64). -/

namespace Sys2Proof.Laws.EncodedLength

/-- The encoding of `i` is `1 + arity` bytes long, at most 3 (R4, R55, R64). -/
def Statement (i : Instr) : Prop := (encode i).length = i.length ∧ i.length ≤ 3

/-- No instruction is longer than 3 bytes (R4, R64). -/
theorem length_le (i : Instr) : i.length ≤ 3 := by
  have := arity_cases i.mnemonic
  unfold Instr.length; omega

theorem ldi (a imm : Byte) : Statement (.ldi a imm) := ⟨rfl, length_le _⟩
theorem add (a b : Byte) : Statement (.add a b) := ⟨rfl, length_le _⟩
theorem mul (a b : Byte) : Statement (.mul a b) := ⟨rfl, length_le _⟩
theorem div (a b : Byte) : Statement (.div a b) := ⟨rfl, length_le _⟩
theorem and (a b : Byte) : Statement (.and a b) := ⟨rfl, length_le _⟩
theorem inc (a : Byte) : Statement (.inc a) := ⟨rfl, length_le _⟩
theorem dec (a : Byte) : Statement (.dec a) := ⟨rfl, length_le _⟩
theorem cmp (a b : Byte) : Statement (.cmp a b) := ⟨rfl, length_le _⟩
theorem prn (a : Byte) : Statement (.prn a) := ⟨rfl, length_le _⟩
theorem push (a : Byte) : Statement (.push a) := ⟨rfl, length_le _⟩
theorem pop (a : Byte) : Statement (.pop a) := ⟨rfl, length_le _⟩
theorem call (a : Byte) : Statement (.call a) := ⟨rfl, length_le _⟩
theorem ret : Statement .ret := ⟨rfl, length_le _⟩
theorem jmp (a : Byte) : Statement (.jmp a) := ⟨rfl, length_le _⟩
theorem jeq (a : Byte) : Statement (.jeq a) := ⟨rfl, length_le _⟩
theorem hlt : Statement .hlt := ⟨rfl, length_le _⟩

end Sys2Proof.Laws.EncodedLength
end

