-- ==== Sys2Proof/Tests/Slice0.lean ====
section
/-! SUPPORT. Tests of the model, expected results from spec/95_test_vectors.md or worked out from the rule named, and for
each statement with hypotheses a witness that meets them. -/

namespace Sys2Proof.Tests

open Sys2Proof.Machine

/-! ### A small state -/

/-- Reset, with `pc` and the bytes there. -/
def standing (pc : Nat) (bytes : List Byte) : State :=
  { State.reset with pc := BitVec.ofNat 9 pc, mem := Memory.place pc bytes [] }

/-- A state with one more cell written. -/
def withCell (s : State) (a : Nat) (v : Byte) : State := { s with mem := Memory.write s.mem a v }

/-- What a look at the next state shows, if there is one. -/
def after {α : Type} (o : Out) (look : State → α) : Option α :=
  match o with
  | .next t => some (look t)
  | _ => none

/-! ### Well-formedness: an ill-formed term for each check, which the check refuses (R57) -/

theorem smoke_illFormed_first : ([.ldi 8 0, .add 8 0, .mul 9 0, .div 255 0, .and 8 0, .inc 8, .dec 16, .cmp 8 0, .prn 9,
    .push 8, .pop 128, .call 8, .jmp 8, .jeq 255].map Instr.wellFormed).all (· == false) = true := by decide
theorem smoke_illFormed_second :
    ([.add 7 8, .mul 0 8, .div 0 10, .and 0 255, .cmp 0 8].map Instr.wellFormed).all (· == false) = true := by decide
theorem smoke_wellFormed :
    ([.ldi 7 200, .add 7 7, .cmp 0 7, .inc 7, .ret, .hlt].map Instr.wellFormed).all (· == true) = true := by decide

/-! ### Decoding: a word of each row, written out bit by bit from R56 and R59 -/

theorem test_decode_ldi : decodeBytes [0b10000010, 0b00000101, 0b11001000] = .ok (.ldi 5 200) := by decide
theorem test_decode_add : decodeBytes [0b10100000, 0b00000110, 0b00000011] = .ok (.add 6 3) := by decide
theorem test_decode_mul : decodeBytes [0b10100010, 0b00000110, 0b00000011] = .ok (.mul 6 3) := by decide
theorem test_decode_div : decodeBytes [0b10100011, 0b00000110, 0b00000011] = .ok (.div 6 3) := by decide
theorem test_decode_and : decodeBytes [0b10101000, 0b00000110, 0b00000011] = .ok (.and 6 3) := by decide
theorem test_decode_inc : decodeBytes [0b01100101, 0b00000110, 0b00000011] = .ok (.inc 6) := by decide
theorem test_decode_dec : decodeBytes [0b01100110, 0b00000110, 0b00000011] = .ok (.dec 6) := by decide
theorem test_decode_cmp : decodeBytes [0b10100111, 0b00000110, 0b00000011] = .ok (.cmp 6 3) := by decide
theorem test_decode_prn : decodeBytes [0b01000111, 0b00000110, 0b00000011] = .ok (.prn 6) := by decide
theorem test_decode_push : decodeBytes [0b01000101, 0b00000110, 0b00000011] = .ok (.push 6) := by decide
theorem test_decode_pop : decodeBytes [0b01000110, 0b00000110, 0b00000011] = .ok (.pop 6) := by decide
theorem test_decode_call : decodeBytes [0b01010000, 0b00000110, 0b00000011] = .ok (.call 6) := by decide
theorem test_decode_ret : decodeBytes [0b00010001, 0b00000110] = .ok .ret := by decide
theorem test_decode_jmp : decodeBytes [0b01010100, 0b00000110, 0b00000011] = .ok (.jmp 6) := by decide
theorem test_decode_jeq : decodeBytes [0b01010101, 0b00000110, 0b00000011] = .ok (.jeq 6) := by decide
theorem test_decode_hlt : decodeBytes [0b00000001, 0b00000110] = .ok .hlt := by decide

/-- 0x00 and 0xA1 are unknown (R62, V-STEP-2, V-STEP-4), and 0xFF whatever its bits 7:6 are (V-STEP-5). -/
theorem test_decode_unknown : decodeBytes [0x00] = .error (.unknownOpcode 0x00) ∧
    decodeBytes [0xA1, 0, 1] = .error (.unknownOpcode 0xA1) ∧ decodeBytes [0xFF, 0, 0] = .error (.unknownOpcode 0xFF) := by
  decide
/-- A missing operand byte, the first before the second (R75). -/
theorem test_decode_missing : decodeBytes [0xA0] = .error (.missingOperand 1) ∧
    decodeBytes [0xA0, 99] = .error (.missingOperand 2) ∧ decodeBytes [0x65] = .error (.missingOperand 1) := by decide
/-- The sixteen patterns are pairwise different (R59). -/
theorem test_opcodes_distinct : (dispatchTable.map Mnemonic.opcode).Nodup := by decide
/-- The table's numbering: the first byte is the least significant. -/
theorem test_tableWord : decodeTableWord 24 0x0802A0 = some (.add 2 8) ∧ decodeTableWord 8 0x82 = some (.ldi 0 0) := by decide

/-! ### The step (spec/95_test_vectors.md 2.1) -/

/-- V-STEP-1. -/
theorem test_step_fetchBeyond : after (step { State.reset with pc := 256 }) (fun t => (t.run, t.fault, t.pc)) =
    some (.faulted, some ⟨.outOfBounds, 256, none, none, none, .address 256⟩, 256) := by decide
/-- V-STEP-2. -/
theorem test_step_unknownSkip : after (step State.reset) (fun t => (t.diag, t.pc, t.run)) =
    some ([⟨0, 0⟩], 1, .running) := by decide
/-- V-STEP-3. -/
theorem test_step_unknownFault : after (step { State.reset with policy := .fault }) (fun t => (t.fault, t.pc, t.diag)) =
    some (some ⟨.unknownOpcode, 0, some 0, some 0, some 0, .opcode 0⟩, 0, []) := by decide
/-- V-STEP-7: RET at the last cell executes. -/
theorem test_step_retAtLastCell :
    after (step { withCell (standing 255 [0x11]) 0xF3 8 with sp := 0xF3 }) (fun t => (t.pc, t.sp)) =
      some (8, 0xF4) := by decide
/-- V-STEP-9. -/
theorem test_step_missing : after (step (standing 254 [0x82, 1])) (fun t => (t.fault, t.pc)) =
    some (some ⟨.outOfBounds, 254, some 0x82, some 1, none, .address 256⟩, 254) := by decide
/-- V-STEP-10: the missing byte is reported before the invalid register. -/
theorem test_step_missingBeforeInvalid : after (step (standing 254 [0xA0, 99])) (fun t => t.fault.map (·.info)) =
    some (some (.address 256)) := by decide
/-- V-STEP-14. -/
theorem test_step_invalidBeforeDivision : after (step (standing 0 [0xA3, 9, 1])) (fun t => t.fault.map (·.info)) =
    some (some (.operand 9)) := by decide
/-- V-STEP-17. -/
theorem test_step_jeqInvalidNotTaken : after (step (standing 0 [0x55, 8])) (fun t => t.fault.map (·.cause)) =
    some (some .invalidRegister) := by decide
/-- V-STEP-18. -/
theorem test_step_invalidBeforeSp :
    after (step { standing 0 [0x45, 8] with sp := 0 }) (fun t => t.fault.map (·.info)) = some (some (.operand 8)) := by
  decide
/-- V-STEP-19. -/
theorem test_step_halted : step { State.reset with run := .halted } = .fault .halted := rfl
/-- The host's placement runs the placed instruction first after reset (V-LDI-1). -/
theorem test_withFetchWord : after (step (State.reset.withFetchWord 24 0x080082)) (fun t => (t.reg 0, t.pc)) =
    some (8, 3) := by decide
/-- R54, D22: 256 bytes are loaded, 257 are refused. -/
theorem test_launch : (∃ s, launch .skip (List.replicate 256 1) = some s) ∧ launch .skip (List.replicate 257 1) = none :=
  ⟨⟨_, if_pos (by rw [List.length_replicate])⟩, if_neg (by rw [List.length_replicate]; decide)⟩
/-- R100: the rendering of a line. -/
theorem test_prnLine : prnLine 255 = ['2', '5', '5'] ∧ prnLine 0 = ['0'] ∧ prnLine 8 = ['8'] := by decide

/-! ### The instructions, one step each (spec/95_test_vectors.md 2.2 to 2.7) -/

/-- V-STEP-13. -/
theorem test_ldi : after (step (standing 0 [0x82, 0, 0xC8])) (fun t => (t.reg 0, t.pc)) =
    some (200, 3) := by decide
/-- V-LDI-2. -/
theorem test_ldi_last : after (step (standing 0 [0x82, 7, 0xFF])) (fun t => (t.reg 7, t.fl)) =
    some (255, 0) := by decide
/-- V-ADD-3. -/
theorem test_add_wraps : after (step (((standing 0 [0xA0, 0, 1]).setReg 0 200).setReg 1 100)) (fun t => (t.reg 0, t.reg 1, t.pc)) =
    some (44, 100, 3) := by decide
/-- V-ADD-5. -/
theorem test_add_same : after (step ((standing 0 [0xA0, 2, 2]).setReg 2 128)) (fun t => (t.reg 2, t.fl)) =
    some (0, 0) := by decide
/-- V-MUL-4. -/
theorem test_mul_wraps : after (step (((standing 0 [0xA2, 0, 1]).setReg 0 3).setReg 1 100)) (fun t => (t.reg 0, t.pc)) =
    some (44, 3) := by decide
/-- V-MUL-7. -/
theorem test_mul_same : after (step ((standing 0 [0xA2, 4, 4]).setReg 4 15)) (fun t => t.reg 4) =
    some 225 := by decide
/-- V-DIV-6. -/
theorem test_div : after (step (((standing 0 [0xA3, 0, 1]).setReg 0 100).setReg 1 7)) (fun t => (t.reg 0, t.reg 1)) =
    some (14, 7) := by decide
/-- V-DIV-7. -/
theorem test_div_zero : after (step ((standing 0 [0xA3, 0, 1]).setReg 0 9)) (fun t => (t.reg 0, t.pc, t.fault)) =
    some (9, 0, some ⟨.divisionByZero, 0, some 0xA3, some 0, some 1, .nothing⟩) := by decide
/-- V-AND-1. -/
theorem test_and : after (step (((standing 0 [0xA8, 2, 3]).setReg 2 0xF0).setReg 3 0x3C)) (fun t => (t.reg 2, t.reg 3)) =
    some (0x30, 0x3C) := by decide
/-- V-INC-2. -/
theorem test_inc_wraps : after (step ((standing 0 [0x65, 0]).setReg 0 255)) (fun t => (t.reg 0, t.fl, t.pc)) =
    some (0, 0, 2) := by decide
/-- V-DEC-2. -/
theorem test_dec_wraps : after (step (standing 0 [0x66, 3])) (fun t => (t.reg 3, t.fl)) =
    some (255, 0) := by decide
/-- V-CMP-4. -/
theorem test_cmp_unsigned : after (step (((standing 0 [0xA7, 0, 1]).setReg 0 0x80).setReg 1 0x7F)) (fun t => (t.fl, t.reg 0)) =
    some (0b010, 0x80) := by decide
/-- V-CMP-6. -/
theorem test_cmp_same : after (step ({ (standing 0 [0xA7, 6, 6]).setReg 6 77 with fl := 0b100 })) (fun t => t.fl) =
    some 0b001 := by decide
/-- V-PRN-2, after a value already emitted. -/
theorem test_prn : after (step ({ (standing 0 [0x47, 5]).setReg 5 255 with prn := [8] })) (fun t => (t.prn, t.pc)) =
    some ([8, 255], 2) := by decide
/-- V-STK-1. -/
theorem test_push : after (step ((standing 0 [0x45, 2]).setReg 2 0x2A)) (fun t => (t.sp, t.readByte 0xF3, t.pc)) =
    some (0xF3, 0x2A, 2) := by decide
/-- V-STK-3. -/
theorem test_push_full : after (step ({ (standing 16 [0x45, 2]).setReg 2 7 with sp := 0 })) (fun t => (t.sp, t.fault)) =
    some (0, some ⟨.outOfBounds, 16, some 0x45, some 2, some 0, .address (-1)⟩) := by decide
/-- V-STK-5. -/
theorem test_pop : after (step ({ withCell (standing 0 [0x46, 3]) 0xFE 9 with sp := 0xFE })) (fun t => (t.reg 3, t.sp, t.readByte 0xFE)) =
    some (9, 0xFF, 9) := by decide
/-- V-STK-6. -/
theorem test_pop_empty : after (step ({ withCell ((standing 0 [0x46, 3]).setReg 3 1) 0xFF 9 with sp := 0xFF })) (fun t => (t.reg 3, t.sp, t.fault.map (·.info))) =
    some (1, 0xFF, some (.address 256)) := by decide
/-- V-CALL-1. -/
theorem test_call : after (step ((standing 6 [0x50, 1]).setReg 1 12)) (fun t => (t.sp, t.readByte 0xF3, t.pc)) =
    some (0xF3, 8, 12) := by decide
/-- V-CALL-2. -/
theorem test_call_last : after (step ((standing 254 [0x50, 1]).setReg 1 12)) (fun t => (t.sp, t.fault)) =
    some (0xF4, some ⟨.outOfBounds, 254, some 0x50, some 1, none, .address 256⟩) := by decide
/-- V-RET-1. -/
theorem test_ret : after (step ({ withCell (standing 22 [0x11]) 0xF3 8 with sp := 0xF3 })) (fun t => (t.pc, t.sp)) =
    some (8, 0xF4) := by decide
/-- V-RET-2. -/
theorem test_ret_empty : after (step ({ standing 22 [0x11] with sp := 0xFF })) (fun t => (t.pc, t.sp, t.fault.map (·.info))) =
    some (22, 0xFF, some (.address 256)) := by decide
/-- V-JMP-3. -/
theorem test_jmp : after (step ((standing 0 [0x54, 2]).setReg 2 255)) (fun t => (t.pc, t.run)) =
    some (255, .running) := by decide
/-- V-JEQ-1. -/
theorem test_jeq_taken : after (step ({ (standing 19 [0x55, 3]).setReg 3 23 with fl := 0b001 })) (fun t => (t.pc, t.fl)) =
    some (23, 0b001) := by decide
/-- V-JEQ-2. -/
theorem test_jeq_notTaken : after (step ({ (standing 19 [0x55, 3]).setReg 3 23 with fl := 0b010 })) (fun t => t.pc) =
    some 21 := by decide
/-- V-HLT-1. -/
theorem test_hlt : after (step (standing 5 [0x01])) (fun t => (t.run, t.pc)) =
    some (.halted, 6) := by decide
/-- V-STEP-6. -/
theorem test_hlt_lastCell : after (step (standing 255 [0x01])) (fun t => (t.run, t.pc)) =
    some (.halted, 256) := by decide
/-- V-SUB-1. -/
theorem test_alu_sub : alu .sub 5 10 = .ok (.result 251) ∧ alu .sub 0 1 = .ok (.result 255) := by decide

/-! ### Witnesses: for each statement with hypotheses, a state and operands that meet them, one for each clause, at the
boundary where the clauses meet -/

/-- The hypotheses of `MissingOperandRaises`. -/
abbrev missingMeets (op : Byte) (len : Nat) (s : State) : Prop :=
  s.run = .running ∧ s.pc.toNat < 256 ∧ 256 < s.pc.toNat + len ∧ s.readByte s.pc.toNat = op

/-- The first and the last operand byte that names no register. -/
abbrev badBytes : Prop := 8 ≤ (8 : Byte).toNat ∧ 8 ≤ (255 : Byte).toNat

theorem witness_LaunchCopiesImageFromAddressZero :
    (List.replicate 256 (1 : Byte)).length ≤ 256 ∧ 256 < (List.replicate 257 (1 : Byte)).length := by
  rw [List.length_replicate, List.length_replicate]; decide
theorem witness_LaunchMeetsInvariant : ∃ s, launch .fault [0x01] = some s := ⟨_, rfl⟩
theorem witness_StepKeepsInvariant : (standing 0 [0x45, 0]).Inv ∧ ∃ t, step (standing 0 [0x45, 0]) = .next t :=
  ⟨⟨by decide, by decide, by decide, by decide, (by intro f h; cases h), (by intro d h; cases h), fun _ => rfl⟩, _, rfl⟩
theorem witness_DecodedBytesBeginWithTheEncoding : decodeBytes [0x47, 5, 9] = .ok (.prn 5) := by decide
theorem witness_StepRunsTheDecodedInstruction : (standing 3 [0x47, 5]).run = .running ∧
    (standing 3 [0x47, 5]).pc.toNat < 256 ∧
    decode ((standing 3 [0x47, 5]).readByte 3) ((standing 3 [0x47, 5]).readAhead 4)
      ((standing 3 [0x47, 5]).readAhead 5) = .ok (.prn 5) := by decide
theorem witness_InstructionAtPcRuns : (standing 253 [0xA0, 1, 7]).fetches (encode (.add 1 7)) ∧
    (standing 255 [0x11]).fetches (encode .ret) := by decide
theorem witness_StepHappensExactlyWhenRunning :
    State.reset.run = .running ∧ ({ State.reset with run := .halted } : State).run = .halted ∧
    (State.reset.raise ⟨.divisionByZero, .nothing⟩).run = .faulted := by decide
theorem witness_OpcodeFetchOfR71 :
    (State.reset.run = .running ∧ State.reset.pc.toNat < 256) ∧
    ({ State.reset with pc := 255 } : State).pc.toNat < 256 ∧
    256 ≤ ({ State.reset with pc := 256 } : State).pc.toNat := by decide
theorem witness_ReadAheadSkipsOutOfBounds : (standing 255 [0x01]).pc.toNat < 256 ∧ State.reset.pc.toNat < 256 := by decide
theorem witness_MissingOperandByteRaises :
    ((standing 255 [0x65]).run = .running ∧ (standing 255 [0x65]).pc.toNat < 256 ∧
      lookup ((standing 255 [0x65]).readByte 255) = some .INC ∧ 256 ≤ 255 + Mnemonic.INC.arity) ∧
    (lookup ((standing 254 [0xA0, 99]).readByte 254) = some .ADD ∧ 256 ≤ 254 + Mnemonic.ADD.arity) ∧
    (lookup ((standing 255 [0x01]).readByte 255) = some .HLT ∧ Mnemonic.HLT.arity = 0) := by decide
theorem witness_UnknownOpcodeFollowsThePolicy :
    (State.reset.run = .running ∧ State.reset.pc.toNat < 256 ∧ lookup (State.reset.readByte 0) = none ∧
      State.reset.policy = .skip) ∧
    ({ standing 255 [0xA1] with policy := .fault } : State).policy = .fault ∧
    lookup ((standing 255 [0xA1]).readByte 255) = none := by decide
theorem witness_InvalidRegisterOfR122 :
    (Instr.add 7 8).regOperands = [7] ++ 8 :: [] ∧ (∀ c ∈ [(7 : Byte)], c.toNat < 8) ∧ 8 ≤ (8 : Byte).toNat ∧
    (standing 0 [0xA0, 7, 8]).fetches (encode (.add 7 8)) := by decide
theorem witness_InvalidRegisterExactlyWhenIllFormed :
    (∃ t, exec (.jeq 8) State.reset = .next t) ∧ State.reset.fault = none ∧
    (Instr.jeq 8).wellFormed = false ∧ (Instr.jeq 7).wellFormed = true := by
  exact ⟨exec_isNext _ _, rfl, by decide, by decide⟩
theorem witness_FaultsArePrecise : ∃ t, step (standing 0 [0xA3, 0, 1]) = .next t ∧ t.run = .faulted := ⟨_, rfl, by decide⟩
theorem witness_UnsupportedAluOpIsUnreachable :
    ∃ t f, step (standing 0 [0xA3, 0, 1]) = .next t ∧ (standing 0 [0xA3, 0, 1]).fault = none ∧ t.fault = some f :=
  ⟨_, _, rfl, rfl, rfl⟩
theorem witness_OnlyDivisionByZeroRegisterRaises :
    (∃ t f, exec (.div 0 1) State.reset = .next t ∧ State.reset.fault = none ∧ t.fault = some f ∧
      f.cause = .divisionByZero) ∧
    (∃ t f, exec (.div 0 8) State.reset = .next t ∧ t.fault = some f ∧ f.cause = .invalidRegister) ∧
    (∃ t, exec (.inc 0) State.reset = .next t ∧ t.fault = none) :=
  ⟨⟨_, _, rfl, rfl, rfl, rfl⟩, ⟨_, _, rfl, rfl, rfl⟩, _, rfl, rfl⟩
theorem witness_OutOfBoundsExactlyInTheListOfR121 :
    (State.reset.run = .running ∧ State.reset.fault = none ∧ State.reset.pc.toNat ≤ 256) ∧
    (({ State.reset with pc := 256 } : State).pc.toNat = 256) ∧
    (lookup ((standing 255 [0x65]).readByte 255) = some .INC) ∧
    (lookup ((standing 254 [0xA0]).readByte 254) = some .ADD) ∧
    (({ standing 0 [0x45, 7] with sp := 0 } : State).fetches [0x45, regByte 7]) ∧
    (({ standing 0 [0x50, 7] with sp := 0 } : State).fetches [0x50, regByte 7]) ∧
    (({ standing 0 [0x46, 7] with sp := 255 } : State).fetches [0x46, regByte 7]) ∧
    (({ standing 255 [0x11] with sp := 255 } : State).fetches [0x11]) ∧
    ((standing 254 [0x50, 7]).fetches [0x50, regByte 7]) := by decide
theorem witness_AluFunctionOfR90 :
    ((0 : Byte).toNat = 0 ∧ (1 : Byte).toNat ≠ 0) ∧ (127 : Byte).toNat < (128 : Byte).toNat ∧
    (255 : Byte).toNat = (255 : Byte).toNat := by decide
theorem witness_MemReadOfR41 : (255 : Nat) < 256 ∧ 256 ≤ (256 : Nat) := by decide
theorem witness_MemWriteOfR42 : (standing 0 [0x45, 2]).mem.wf = true ∧ (255 : Nat) < 256 ∧ 256 ≤ (256 : Nat) := by decide
theorem witness_MemoriesThatReadAlikeAreEqual :
    Memory.wf [(3, 7#8), (255, 1#8)] = true ∧ Memory.wf (Memory.write (Memory.write [] 255 1#8) 3 7#8) = true ∧
    Memory.write (Memory.write [] 255 1#8) 3 7#8 = [(3, 7#8), (255, 1#8)] := by decide
theorem witness_RegistersHoldWhatIsWritten : (3 : Reg) ≠ 4 := by decide

theorem witness_LdiLoadsTheImmediate :
    (standing 253 []).readyFor 3 ∧ badBytes ∧ (standing 253 [0x82, 7, 255]).fetches [0x82, 7, 255] ∧
    missingMeets 0x82 3 (standing 255 [0x82]) ∧ missingMeets 0x82 3 (standing 254 [0x82, 99]) := by decide
theorem witness_AddStoresTheWrappedSum :
    (standing 253 []).readyFor 3 ∧ badBytes ∧ (standing 253 [0xA0, 7, 255]).fetches [0xA0, 7, 255] ∧
    missingMeets 0xA0 3 (standing 255 [0xA0]) ∧ missingMeets 0xA0 3 (standing 254 [0xA0, 99]) := by decide
theorem witness_MulStoresTheWrappedProduct :
    (standing 253 []).readyFor 3 ∧ badBytes ∧ (standing 253 [0xA2, 7, 255]).fetches [0xA2, 7, 255] ∧
    missingMeets 0xA2 3 (standing 255 [0xA2]) ∧ missingMeets 0xA2 3 (standing 254 [0xA2, 99]) := by decide
theorem witness_DivStoresTheQuotientOrRaises :
    (standing 253 []).readyFor 3 ∧ badBytes ∧ (standing 253 [0xA3, 7, 255]).fetches [0xA3, 7, 255] ∧
    missingMeets 0xA3 3 (standing 255 [0xA3]) ∧ missingMeets 0xA3 3 (standing 254 [0xA3, 99]) ∧
    ((standing 253 []).setReg 7 1).reg 7 ≠ 0#8 ∧ (standing 253 []).reg 7 = 0#8 := by decide
theorem witness_AndStoresTheBitwiseAnd :
    (standing 253 []).readyFor 3 ∧ badBytes ∧ (standing 253 [0xA8, 7, 255]).fetches [0xA8, 7, 255] ∧
    missingMeets 0xA8 3 (standing 255 [0xA8]) ∧ missingMeets 0xA8 3 (standing 254 [0xA8, 99]) := by decide
theorem witness_IncAddsOneWrapping :
    (standing 254 []).readyFor 2 ∧ badBytes ∧ (standing 254 [0x65, 255]).fetches [0x65, 255] ∧
    missingMeets 0x65 2 (standing 255 [0x65]) := by decide
theorem witness_DecSubtractsOneWrapping :
    (standing 254 []).readyFor 2 ∧ badBytes ∧ (standing 254 [0x66, 255]).fetches [0x66, 255] ∧
    missingMeets 0x66 2 (standing 255 [0x66]) := by decide
theorem witness_CmpSetsExactlyOneFlag :
    ((standing 253 []).readyFor 3 ∧ badBytes ∧ (standing 253 [0xA7, 7, 255]).fetches [0xA7, 7, 255] ∧
    missingMeets 0xA7 3 (standing 255 [0xA7]) ∧ missingMeets 0xA7 3 (standing 254 [0xA7, 99])) ∧
    ∃ t, step ((standing 0 [0xA7, 0, 1]).setReg 0 5) = .next t ∧ t.fl ≠ ((standing 0 [0xA7, 0, 1]).setReg 0 5).fl :=
  ⟨by decide, _, rfl, by decide⟩
theorem witness_PrnEmitsTheRegister :
    (standing 254 []).readyFor 2 ∧ badBytes ∧ (standing 254 [0x47, 255]).fetches [0x47, 255] ∧
    missingMeets 0x47 2 (standing 255 [0x47]) := by decide
theorem witness_PushStoresAtTheNewSp :
    (standing 254 []).readyFor 2 ∧ badBytes ∧ (standing 254 [0x45, 255]).fetches [0x45, 255] ∧
    missingMeets 0x45 2 (standing 255 [0x45]) ∧
    ({ standing 254 [] with sp := 1 } : State).sp ≠ 0#8 ∧ ({ standing 254 [] with sp := 0 } : State).readyFor 2 := by decide
theorem witness_PopLoadsFromTheOldSp :
    (standing 254 []).readyFor 2 ∧ badBytes ∧ (standing 254 [0x46, 255]).fetches [0x46, 255] ∧
    missingMeets 0x46 2 (standing 255 [0x46]) ∧
    ({ standing 254 [] with sp := 254 } : State).sp ≠ 255#8 ∧ ({ standing 254 [] with sp := 255 } : State).readyFor 2 := by decide
theorem witness_CallPushesTheNextAddress :
    (standing 254 []).readyFor 2 ∧ badBytes ∧ (standing 254 [0x50, 255]).fetches [0x50, 255] ∧
    missingMeets 0x50 2 (standing 255 [0x50]) ∧
    ((standing 253 []).readyFor 2 ∧ (standing 253 []).pc.toNat ≠ 254 ∧ (standing 253 []).sp ≠ 0#8) ∧
    (standing 254 []).pc.toNat = 254 ∧
    (({ standing 253 [] with sp := 0 } : State).readyFor 2 ∧ ({ standing 253 [] with sp := 0 } : State).sp = 0#8) := by decide
theorem witness_JmpSetsThePc :
    (standing 254 []).readyFor 2 ∧ badBytes ∧ (standing 254 [0x54, 255]).fetches [0x54, 255] ∧
    missingMeets 0x54 2 (standing 255 [0x54]) := by decide
theorem witness_JeqBranchesOnEqual :
    (standing 254 []).readyFor 2 ∧ badBytes ∧ (standing 254 [0x55, 255]).fetches [0x55, 255] ∧
    missingMeets 0x55 2 (standing 255 [0x55]) ∧
    (({ standing 254 [] with fl := 0b001 } : State).fl.getLsbD 0 = true ∧ ({ standing 254 [] with fl := 0b110 } : State).fl.getLsbD 0 = false) := by decide
theorem witness_RetPopsThePc :
    (({ standing 255 [0x11] with sp := 254 } : State).readyFor 1 ∧ ({ standing 255 [0x11] with sp := 254 } : State).sp ≠ 255#8) ∧
    ({ standing 255 [0x11] with sp := 255 } : State).readyFor 1 ∧ (standing 255 [0x11]).fetches [0x11] := by decide
theorem witness_HltHaltsTheMachine :
    ((standing 255 [0x01]).readyFor 1 ∧ (standing 255 [0x01]).fetches [0x01]) ∧ ∃ t, exec .hlt State.reset = .next t :=
  ⟨by decide, _, rfl⟩

theorem witness_RegisterInstructionsFrame :
    (∃ t, exec (.ldi 7 9) State.reset = .next t) ∧ (∃ t, exec (.add 7 1) State.reset = .next t) ∧
    (∃ t, exec (.mul 7 1) State.reset = .next t) ∧ (∃ t, exec (.div 7 1) State.reset = .next t) ∧
    (∃ t, exec (.and 7 1) State.reset = .next t) ∧ (∃ t, exec (.inc 7) State.reset = .next t) ∧
    (∃ t, exec (.dec 7) State.reset = .next t) :=
  ⟨exec_isNext _ _, exec_isNext _ _, exec_isNext _ _, exec_isNext _ _, exec_isNext _ _, exec_isNext _ _, exec_isNext _ _⟩
theorem witness_CmpFrame : ∃ t, exec (.cmp 0 1) State.reset = .next t ∧ t.fl = 0b001#3 := ⟨_, rfl, by decide⟩
theorem witness_PrnFrame : ∃ t, exec (.prn 3) State.reset = .next t ∧ t.prn = [0] := ⟨_, rfl, by decide⟩
theorem witness_PushAndCallFrame :
    (∃ t, exec (.push 0) (State.reset.setReg 0 9) = .next t ∧ t.readByte 0xF3 = 9) ∧
    (∃ t, exec (.call 0) State.reset = .next t ∧ t.readByte 0xF3 = 2) ∧ State.reset.pushSlot = .ok 0xF3 ∧
    ({ State.reset with sp := 0 } : State).pushSlot = .error (outOfBoundsAt (-1)) :=
  ⟨⟨_, rfl, by decide⟩, ⟨_, rfl, by decide⟩, by decide, by decide⟩
theorem witness_PopAndRetFrame :
    (∃ t, exec (.pop 3) State.reset = .next t ∧ t.sp = 0xF5) ∧ (∃ t, exec .ret State.reset = .next t ∧ t.sp = 0xF5) :=
  ⟨⟨_, rfl, by decide⟩, _, rfl, by decide⟩
theorem witness_JumpAndHaltFrame :
    (∃ t, exec (.jmp 3) State.reset = .next t) ∧ (∃ t, exec (.jeq 3) State.reset = .next t) ∧
    (∃ t, exec .hlt State.reset = .next t) := ⟨exec_isNext _ _, exec_isNext _ _, exec_isNext _ _⟩
theorem witness_OnlyTheseInstructionsWrite :
    (∃ t, step ((standing 0 [0x45, 2]).setReg 2 7) = .next t ∧ t.sp ≠ 0xF4 ∧
      t.mem ≠ ((standing 0 [0x45, 2]).setReg 2 7).mem) ∧
    (∃ t, step (standing 0 [0x65, 2]) = .next t ∧ t.reg 2 ≠ 0) ∧
    (∃ t, step (standing 0 [0x47, 2]) = .next t ∧ t.prn ≠ []) ∧
    (∃ t, step State.reset = .next t ∧ t.diag ≠ []) ∧ (∃ t, step (standing 0 [0x01]) = .next t ∧ t.run = .halted) ∧
    (∃ t, step (standing 0 [0xA7, 0, 1]) = .next t ∧ t.fl ≠ 0) :=
  ⟨⟨_, rfl, by decide, by decide⟩, ⟨_, rfl, by decide⟩, ⟨_, rfl, by decide⟩, ⟨_, rfl, by decide⟩, ⟨_, rfl, by decide⟩,
    _, rfl, by decide⟩
theorem witness_StreamsAreAppendedToAndNeverRead : ∃ t, step (standing 0 [0x47, 2]) = .next t ∧ t.prn = [0] :=
  ⟨_, rfl, by decide⟩
theorem witness_PushedByteIsFetchedNext :
    ({ standing 0 [0x45, 0] with sp := 3 } : State).mem.wf = true ∧
    ({ standing 0 [0x45, 0] with sp := 3 } : State).readyFor 2 ∧ ({ standing 0 [0x45, 0] with sp := 3 } : State).sp ≠ 0#8 ∧
    ∃ t, exec (.push (regByte 0)) { standing 0 [0x45, 0] with sp := 3 } = .next t ∧ t.pc.toNat = 3 - 1 :=
  ⟨by decide, by decide, by decide, _, rfl, by decide⟩
theorem witness_PushThenPopRoundTrips :
    ((standing 0 [0x45, 1, 0x46, 2]).mem.wf = true ∧ (standing 0 [0x45, 1, 0x46, 2]).fetches [0x45, regByte 1] ∧
      (standing 0 [0x45, 1, 0x46, 2]).sp ≠ 0#8) ∧
    ∃ t, step (standing 0 [0x45, 1, 0x46, 2]) = .next t ∧ t.fetches [0x46, regByte 2] :=
  ⟨by decide, _, rfl, by decide⟩
theorem witness_CallThenRetReturns :
    ((withCell ((standing 6 [0x50, 1]).setReg 1 12) 12 0x11).mem.wf = true ∧
      (withCell ((standing 6 [0x50, 1]).setReg 1 12) 12 0x11).fetches [0x50, regByte 1] ∧
      (withCell ((standing 6 [0x50, 1]).setReg 1 12) 12 0x11).pc.toNat ≠ 254 ∧
      (withCell ((standing 6 [0x50, 1]).setReg 1 12) 12 0x11).sp ≠ 0#8) ∧
    ∃ t, step (withCell ((standing 6 [0x50, 1]).setReg 1 12) 12 0x11) = .next t ∧ t.readByte t.pc.toNat = 0x11#8 :=
  ⟨by decide, _, rfl, by decide⟩
theorem witness_BudgetedRunsResume :
    ({ State.reset with run := .halted } : State).ended ∧ (State.reset.raise ⟨.divisionByZero, .nothing⟩).ended := by decide
theorem witness_EndedRunsHaveTheResultOfR160 :
    State.reset.Inv ∧ (∃ r, runResult { State.reset with run := .halted } = some r) ∧
    ({ State.reset with run := .halted } : State).Inv :=
  ⟨⟨by decide, by decide, by decide, by decide, (by intro f h; cases h), (by intro d h; cases h), fun _ => rfl⟩, ⟨_, rfl⟩,
    ⟨by decide, by decide, by decide, by decide, (by intro f h; cases h), (by intro d h; cases h), fun _ => rfl⟩⟩

end Sys2Proof.Tests
end

/-! ## What the meanings commit, and what they keep (spec/10_state.md) -/

section
namespace Sys2Proof

/-- The operand byte that names the register which LDI, ADD, MUL, DIV, AND, INC and DEC put their result in; none for
an instruction that computes no result. -/
def Instr.resultByte : Instr → Option Byte
  | .ldi a _ | .add a _ | .mul a _ | .div a _ | .and a _ | .inc a | .dec a => some a
  | _ => none

/-- The byte that names the result register is the first operand byte. -/
theorem operands_head_of_resultByte {i : Instr} {a : Byte} (h : i.resultByte = some a) :
    i.operands.head? = some a := by
  cases i <;> cases h <;> rfl

/-- The rows of the instructions that compute a result. -/
theorem mnemonic_of_resultByte {i : Instr} {a : Byte} (h : i.resultByte = some a) :
    i.mnemonic ∈ [Mnemonic.LDI, .ADD, .MUL, .DIV, .AND, .INC, .DEC] := by
  cases i <;> cases h <;> simp [Instr.mnemonic]

/-- The first operand byte of a decoded instruction is the first read-ahead byte (R75). -/
theorem decode_operands_head {ir a : Byte} {oa ob : Option Byte} {i : Instr} (h : decode ir oa ob = .ok i)
    (ha : i.operands.head? = some a) : oa = some a := by
  rcases decode_cases ir oa ob with ⟨-, e⟩ | ⟨m, -, ⟨-, -, e⟩ | ⟨-, -, -, e⟩ | ⟨h1, -, e⟩⟩ <;> rw [e] at h <;> cases h
  rw [build_operands] at ha
  cases hm : m.arity with
  | zero => simp [hm] at ha
  | succ n =>
    obtain ⟨c, rfl⟩ := Option.ne_none_iff_exists'.mp (h1 (by omega))
    simpa [hm] using ha

namespace Machine

variable {s t : State} {i : Instr}

/-- The state an instruction commits when it raises nothing (R79), one case for each way to write the state. -/
inductive Commits (s : State) : Instr → State → Prop
  | result {i : Instr} {r : Reg} (v : Byte) (hi : i.resultByte = some (regByte r)) :
      Commits s i ((s.advance i.length).setReg r v)
  | cmp (a b : Reg) :
      Commits s (.cmp (regByte a) (regByte b)) ((s.advance 3).setFlags (compareFlags (s.reg a) (s.reg b)))
  | prn (a : Reg) : Commits s (.prn (regByte a)) ((s.advance 2).emit (s.reg a))
  | push (a : Reg) (h : s.sp ≠ 0#8) :
      Commits s (.push (regByte a))
        { s.advance 2 with sp := s.sp - 1#8, mem := s.mem.write (s.sp - 1#8).toNat (s.reg a) }
  | pop (a : Reg) (h : s.sp ≠ 255#8) :
      Commits s (.pop (regByte a)) (State.setReg { s.advance 2 with sp := s.sp + 1#8 } a (s.readByte s.sp.toNat))
  | call (a : Reg) (ret : Byte) (h : s.sp ≠ 0#8) :
      Commits s (.call (regByte a))
        (State.jumpTo { s.advance 2 with sp := s.sp - 1#8, mem := s.mem.write (s.sp - 1#8).toNat ret } (s.reg a))
  | ret (h : s.sp ≠ 255#8) :
      Commits s .ret (State.jumpTo { s.advance 1 with sp := s.sp + 1#8 } (s.readByte s.sp.toNat))
  | jmp (a : Reg) : Commits s (.jmp (regByte a)) ((s.advance 2).jumpTo (s.reg a))
  | jeqTaken (a : Reg) (h : flagE s.fl = true) : Commits s (.jeq (regByte a)) ((s.advance 2).jumpTo (s.reg a))
  | jeqNotTaken (a : Reg) (h : flagE s.fl = false) : Commits s (.jeq (regByte a)) (s.advance 2)
  | hlt : Commits s .hlt ((s.advance 1).halt)

/-- An answer of format `R`: a fault, or what the handler makes of a register. -/
theorem runR_ok_or_raises {a : Byte} {h : Reg → State → Except Raised State} (e : runR s a h = .next t) :
    (∃ r, t = s.raise r) ∨ ∃ ra, a = regByte ra ∧ h ra (s.advance 2) = .ok t := by
  rcases runR_cases e with ⟨ra, rfl, he⟩ | ⟨-, rfl⟩
  · rcases commit_cases he with hok | ⟨r, -, rfl⟩
    · exact .inr ⟨ra, rfl, hok⟩
    · exact .inl ⟨r, rfl⟩
  · exact .inl ⟨_, rfl⟩

/-- An answer of format `RR`: a fault, or what the handler makes of two registers. -/
theorem runRR_ok_or_raises {a b : Byte} {h : Reg → Reg → State → Except Raised State}
    (e : runRR s a b h = .next t) :
    (∃ r, t = s.raise r) ∨ ∃ ra rb, a = regByte ra ∧ b = regByte rb ∧ h ra rb (s.advance 3) = .ok t := by
  rcases runRR_cases e with ⟨ra, rb, rfl, rfl, he⟩ | ⟨v, -, rfl⟩
  · rcases commit_cases he with hok | ⟨r, -, rfl⟩
    · exact .inr ⟨ra, rb, rfl, rfl, hok⟩
    · exact .inl ⟨r, rfl⟩
  · exact .inl ⟨_, rfl⟩

/-- An answer of format `RR` where the handler puts a value computed from two registers into the first. -/
theorem runRR_setReg_commits {a b : Byte} {f : Byte → Byte → Byte} (hi : i.resultByte = some a)
    (hlen : i.length = 3)
    (e : (runRR s a b fun ra rb t => .ok (t.setReg ra (f (t.reg ra) (t.reg rb)))) = .next t) :
    (∃ r, t = s.raise r) ∨ Commits s i t := by
  rcases runRR_ok_or_raises e with h | ⟨ra, rb, rfl, -, he⟩
  · exact .inl h
  · cases he; exact .inr (hlen ▸ .result _ hi)

/-- An answer of format `R` where the handler puts a value computed from the register back into it. -/
theorem runR_setReg_commits {a : Byte} {f : Byte → Byte} (hi : i.resultByte = some a) (hlen : i.length = 2)
    (e : (runR s a fun ra t => .ok (t.setReg ra (f (t.reg ra)))) = .next t) :
    (∃ r, t = s.raise r) ∨ Commits s i t := by
  rcases runR_ok_or_raises e with h | ⟨ra, rfl, he⟩
  · exact .inl h
  · cases he; exact .inr (hlen ▸ .result _ hi)

/-- All that a meaning can answer: a fault taken, or what it commits. -/
theorem exec_raises_or_commits (e : exec i s = .next t) : (∃ r, t = s.raise r) ∨ Commits s i t := by
  cases i with
  | ldi a imm =>
    rcases runRI_cases (exec_ldi a imm s ▸ e) with ⟨ra, rfl, he⟩ | ⟨-, rfl⟩
    · cases he; exact .inr (.result imm rfl)
    · exact .inl ⟨_, rfl⟩
  | add a b => exact runRR_setReg_commits rfl rfl (exec_add a b s ▸ e)
  | mul a b => exact runRR_setReg_commits rfl rfl (exec_mul a b s ▸ e)
  | and a b => exact runRR_setReg_commits rfl rfl (exec_and a b s ▸ e)
  | inc a => exact runR_setReg_commits (f := (· + 1#8)) rfl rfl (exec_inc a s ▸ e)
  | dec a => exact runR_setReg_commits (f := (· - 1#8)) rfl rfl (exec_dec a s ▸ e)
  | div a b =>
    refine (runRR_ok_or_raises (exec_div a b s ▸ e)).imp_right ?_
    rintro ⟨ra, rb, rfl, -, he⟩
    split at he <;> cases he
    exact .result _ rfl
  | cmp a b =>
    refine (runRR_ok_or_raises (exec_cmp a b s ▸ e)).imp_right ?_
    rintro ⟨ra, rb, rfl, rfl, he⟩
    cases he; exact .cmp ra rb
  | prn a =>
    refine (runR_ok_or_raises (exec_prn a s ▸ e)).imp_right ?_
    rintro ⟨ra, rfl, he⟩
    cases he; exact .prn ra
  | push a =>
    refine (runR_ok_or_raises (exec_push a s ▸ e)).imp_right ?_
    rintro ⟨ra, rfl, he⟩
    rcases push_cases (s.advance 2) ((s.advance 2).reg ra) with ⟨hsp, hp⟩ | ⟨-, hp⟩ <;> rw [hp] at he <;> cases he
    exact .push ra hsp
  | pop a =>
    refine (runR_ok_or_raises (exec_pop a s ▸ e)).imp_right ?_
    rintro ⟨ra, rfl, he⟩
    rcases pop_cases (s.advance 2) with ⟨hsp, hp⟩ | ⟨-, hp⟩ <;> rw [hp] at he <;> cases he
    exact .pop ra hsp
  | call a =>
    refine (runR_ok_or_raises (exec_call a s ▸ e)).imp_right ?_
    rintro ⟨ra, rfl, he⟩
    split at he
    · cases he
    · next ret _ =>
      rcases push_cases (s.advance 2) ret with ⟨hsp, hp⟩ | ⟨-, hp⟩ <;> rw [hp] at he <;> cases he
      exact .call ra ret hsp
  | ret =>
    rcases commit_cases (exec_ret s ▸ e) with he | ⟨r, -, rfl⟩
    · rcases pop_cases (s.advance 1) with ⟨hsp, hp⟩ | ⟨-, hp⟩ <;> rw [hp] at he <;> cases he
      exact .inr (.ret hsp)
    · exact .inl ⟨r, rfl⟩
  | jmp a =>
    refine (runR_ok_or_raises (exec_jmp a s ▸ e)).imp_right ?_
    rintro ⟨ra, rfl, he⟩
    cases he; exact .jmp ra
  | jeq a =>
    refine (runR_ok_or_raises (exec_jeq a s ▸ e)).imp_right ?_
    rintro ⟨ra, rfl, he⟩
    cases he
    cases hf : flagE s.fl
    · simpa [hf] using Commits.jeqNotTaken ra hf
    · simpa [hf] using Commits.jeqTaken ra hf
  | hlt => cases e; exact .inr .hlt

/-- The step on bytes the decoder rejects. -/
theorem step_of_decode_error (hr : s.run = .running) (hp : s.pc.toNat < 256) {x : DecodeError}
    (hd : decode (s.readByte s.pc.toNat) (s.readAhead (s.pc.toNat + 1)) (s.readAhead (s.pc.toNat + 2)) = .error x) :
    step s = decodeFailure x s := by
  rw [step_inside hr hp, hd]

/-- The step on bytes that decode (R73, R78). -/
theorem step_of_decode_ok (hr : s.run = .running) (hp : s.pc.toNat < 256)
    (hd : decode (s.readByte s.pc.toNat) (s.readAhead (s.pc.toNat + 1)) (s.readAhead (s.pc.toNat + 2)) = .ok i) :
    step s = exec i s := by
  rw [step_inside hr hp, hd]

/-- All that a step can do: it takes a fault, it skips an unknown opcode with a diagnostic, or it commits what the
decoded instruction does. -/
theorem step_raises_or_skips_or_commits (e : step s = .next t) :
    (∃ r, t = s.raise r) ∨
    (lookup (s.readByte s.pc.toNat) = none ∧ t = (s.diagnose s.pc (s.readByte s.pc.toNat)).advance 1) ∨
    ∃ i : Instr, lookup (s.readByte s.pc.toNat) = some i.mnemonic ∧
      decode (s.readByte s.pc.toNat) (s.readAhead (s.pc.toNat + 1)) (s.readAhead (s.pc.toNat + 2)) = .ok i ∧
      Commits s i t := by
  obtain ⟨-, h⟩ := step_cases e
  rcases h with ⟨-, rfl⟩ | ⟨-, hl, -, rfl⟩ | ⟨-, -, -, rfl⟩ | ⟨-, m, -, -, -, rfl⟩ | ⟨i, -, hl, hd, he⟩
  · exact .inl ⟨_, rfl⟩
  · exact .inr (.inl ⟨hl, rfl⟩)
  · exact .inl ⟨_, rfl⟩
  · exact .inl ⟨_, rfl⟩
  · exact (exec_raises_or_commits he).imp_right fun hc => .inr ⟨i, hl, hd, hc⟩

/-! ### What a commit leaves, field by field -/

namespace Commits

theorem fault_eq (h : Commits s i t) : t.fault = s.fault := by cases h <;> rfl
theorem diag_eq (h : Commits s i t) : t.diag = s.diag := by cases h <;> rfl
theorem policy_eq (h : Commits s i t) : t.policy = s.policy := by cases h <;> rfl

/-- `pc` goes to the next instruction in memory order, or to a byte (R34, R77). -/
theorem pc_cases (h : Commits s i t) : t.pc = (s.advance i.length).pc ∨ ∃ v, t.pc = zext9 v := by
  cases h with
  | call | ret | jmp | jeqTaken => exact .inr ⟨_, rfl⟩
  | _ => exact .inl rfl

/-- `run` changes at HLT only (R22, R115). -/
theorem run_cases (h : Commits s i t) : t.run = s.run ∨ i.mnemonic = .HLT ∧ t.run = .halted := by
  cases h with
  | hlt => exact .inr ⟨rfl, rfl⟩
  | _ => exact .inl rfl

/-- `fl` changes at CMP only, to what the comparison leaves (R20, R99). -/
theorem fl_cases (h : Commits s i t) : t.fl = s.fl ∨ i.mnemonic = .CMP ∧ ∃ v w, t.fl = compareFlags v w := by
  cases h with
  | cmp => exact .inr ⟨rfl, _, _, rfl⟩
  | _ => exact .inl rfl

/-- `sp` changes at PUSH, POP, CALL and RET only (R18). -/
theorem sp_cases (h : Commits s i t) : t.sp = s.sp ∨ i.mnemonic ∈ [Mnemonic.PUSH, .POP, .CALL, .RET] := by
  cases h with
  | push | pop | call | ret => exact .inr (by simp [Instr.mnemonic])
  | _ => exact .inl rfl

/-- Memory changes at PUSH and CALL only, in one cell (R43). -/
theorem mem_cases (h : Commits s i t) :
    t.mem = s.mem ∨ i.mnemonic ∈ [Mnemonic.PUSH, .CALL] ∧ ∃ slot v : Byte, t.mem = s.mem.write slot.toNat v := by
  cases h with
  | push | call => exact .inr ⟨by simp [Instr.mnemonic], _, _, rfl⟩
  | _ => exact .inl rfl

/-- The PRN stream changes at PRN only (R26, R100). -/
theorem prn_cases (h : Commits s i t) : t.prn = s.prn ∨ i.mnemonic = .PRN := by
  cases h with
  | prn => exact .inr rfl
  | _ => exact .inl rfl

/-- A register changes only where it is the first operand of an instruction with a result, or of POP (R12). -/
theorem reg_cases (h : Commits s i t) (r : Reg) :
    t.reg r = s.reg r ∨ i.operands.head? = some (regByte r) ∧
      i.mnemonic ∈ [Mnemonic.LDI, .ADD, .MUL, .DIV, .AND, .INC, .DEC, .POP] := by
  cases h with
  | @result _ q v hi =>
    by_cases hq : r = q
    · subst hq
      exact .inr ⟨operands_head_of_resultByte hi, List.mem_append_left [Mnemonic.POP] (mnemonic_of_resultByte hi)⟩
    · exact .inl (State.setReg_reg_ne _ hq v)
  | pop a =>
    by_cases hq : r = a
    · subst hq; exact .inr ⟨rfl, by simp [Instr.mnemonic]⟩
    · exact .inl (State.setReg_reg_ne _ hq _)
  | _ => exact .inl rfl

end Commits

/-! ### The invariant -/

/-- A byte as an address is below 256 (R6). -/
theorem zext9_toNat_lt (v : Byte) : (zext9 v).toNat < 256 := by
  have := v.isLt
  simp [zext9]; omega

/-- A running machine of the invariant has no record yet (log entry 2). -/
theorem State.Inv.fault_none (hs : s.Inv) (hr : s.run = .running) : s.fault = none := by
  have h := hs.recordWhenFaulted
  simpa [hr] using h

/-- Fault entry keeps the invariant: the new record names this `pc` and the bytes there (R127, R128). -/
theorem State.Inv.raise (hs : s.Inv) {r : Raised} (hr : infoFits r.cause r.info = true) : (s.raise r).Inv where
  memWf := hs.memWf
  pcInRange := hs.pcInRange
  flagsLegal := hs.flagsLegal
  recordWhenFaulted := by simp
  recordFits := by
    intro f hf
    cases hf
    simp [State.recordFits, hr]
  diagFits := hs.diagFits
  diagWhenSkip := hs.diagWhenSkip

/-- Skipping an unknown opcode keeps the invariant (R74, R125). -/
theorem State.Inv.skip (hs : s.Inv) (hr : s.run = .running) (hp : s.pc.toNat < 256)
    (hl : lookup (s.readByte s.pc.toNat) = none) (hpol : s.policy = .skip) :
    ((s.diagnose s.pc (s.readByte s.pc.toNat)).advance 1).Inv where
  memWf := hs.memWf
  pcInRange := by
    rw [advance_pc_toNat (by rw [State.diagnose_pc]; omega)]
    exact hp
  flagsLegal := hs.flagsLegal
  recordWhenFaulted := hs.recordWhenFaulted
  recordFits := by
    intro f hf
    have hf' : s.fault = some f := hf
    simp [hs.fault_none hr] at hf'
  diagFits := by
    intro d hd
    have hd' : d ∈ s.diag ∨ d = ⟨s.pc, s.readByte s.pc.toNat⟩ := by simpa using hd
    rcases hd' with h | rfl
    · exact hs.diagFits d h
    · simp [Machine.diagFits, hp, hl]
  diagWhenSkip := by simp [hpol]

/-- A commit of an instruction inside memory keeps the invariant. -/
theorem State.Inv.commits (hs : s.Inv) (hr : s.run = .running) (hc : Commits s i t)
    (hroom : s.pc.toNat + i.length ≤ 256) : t.Inv where
  memWf := by
    rcases hc.mem_cases with h | ⟨-, slot, v, h⟩ <;> rw [h]
    · exact hs.memWf
    · exact Memory.write_wf v (byte_lt_memorySize slot) hs.memWf
  pcInRange := by
    rcases hc.pc_cases with h | ⟨v, h⟩ <;> rw [h]
    · rw [advance_pc_toNat hroom]; exact hroom
    · exact (zext9_toNat_lt v).le
  flagsLegal := by
    rcases hc.fl_cases with h | ⟨-, v, w, h⟩ <;> rw [h]
    · exact hs.flagsLegal
    · exact compareFlags_legal v w
  recordWhenFaulted := by
    rw [hc.fault_eq, hs.fault_none hr]
    rcases hc.run_cases with h | ⟨-, h⟩ <;> simp [h, hr]
  recordFits := by simp [hc.fault_eq, hs.fault_none hr]
  diagFits := by rw [hc.diag_eq]; exact hs.diagFits
  diagWhenSkip := by rw [hc.diag_eq, hc.policy_eq]; exact hs.diagWhenSkip

/-- A meaning inside memory keeps the invariant, whether it raises or commits. -/
theorem State.Inv.exec (hs : s.Inv) (hr : s.run = .running) (hroom : s.pc.toNat + i.mnemonic.arity < 256)
    (e : exec i s = .next t) : t.Inv := by
  rcases exec_raises_or_keeps e with ⟨r, rfl, -, hinfo⟩ | ⟨hf, -⟩
  · exact hs.raise (hinfo hroom)
  · rcases exec_raises_or_commits e with ⟨r, rfl⟩ | hc
    · simp [hs.fault_none hr] at hf
    · exact hs.commits hr hc (by unfold Instr.length; omega)

/-- Settles O5: each of the things a step can do keeps the invariant. -/
theorem stepKeepsInvariant : Obligations.StepKeepsInvariant := by
  intro s t hs e
  obtain ⟨hr, h⟩ := step_cases e
  rcases h with ⟨hp, rfl⟩ | ⟨hp, hl, hpol, rfl⟩ | ⟨-, hl, -, rfl⟩ | ⟨-, m, -, -, -, rfl⟩ | ⟨i, hroom, -, -, he⟩
  · have hpc : s.pc.toNat = 256 := le_antisymm hs.pcInRange hp
    exact hs.raise (by simp [hpc, outOfBoundsAt, infoFits])
  · exact hs.skip hr hp hl hpol
  · exact hs.raise (by simp [infoFits, hl])
  · exact hs.raise rfl
  · exact hs.exec hr hroom he

/-- Settles O3. -/
theorem resetMeetsInvariant : Obligations.ResetMeetsInvariant where
  memWf := rfl
  pcInRange := Nat.zero_le _
  flagsLegal := rfl
  recordWhenFaulted := by decide
  recordFits := by intro f hf; cases hf
  diagFits := by intro d hd; cases hd
  diagWhenSkip := fun _ => rfl

/-! ### Reset and the registers -/

/-- Settles O1: each clause is the value `State.reset` writes out. -/
theorem resetLeavesTheTableOfR28 : Obligations.ResetLeavesTheTableOfR28 := by
  have hreg : ∀ r : Reg, State.reset.reg r = 0#8 := by simp [State.reg, State.reset]
  exact ⟨hreg, rfl, rfl, rfl, rfl, fun _ => rfl, rfl, rfl⟩

/-- Settles O28. -/
theorem registersHoldWhatIsWritten : Obligations.RegistersHoldWhatIsWritten :=
  fun s r v => ⟨s.setReg_reg_self r v, fun _ hq => s.setReg_reg_ne hq v, rfl⟩

/-! ### Frames -/

/-- The frame of every instruction with a result register. -/
theorem exec_frame_of_resultByte {a : Byte} (hi : i.resultByte = some a) (e : exec i s = .next t) :
    keepsRegsBut (some a) s t ∧ t.fl = s.fl ∧ t.sp = s.sp ∧ t.prn = s.prn ∧ t.diag = s.diag ∧
    t.policy = s.policy ∧ keepsMemory s t ∧ keepsRunUnlessFault s t := by
  rcases exec_raises_or_commits e with ⟨r, rfl⟩ | hc
  · exact ⟨fun _ _ => rfl, rfl, rfl, rfl, rfl, rfl, fun _ => rfl, .inr ⟨r, rfl⟩⟩
  · cases hc with
    | @result _ q v hq =>
      have hregs : keepsRegsBut (some a) s ((s.advance i.length).setReg q v) := by
        intro r hr
        have hne : r ≠ q := by rintro rfl; exact hr (hi ▸ hq)
        exact State.setReg_reg_ne _ hne v
      exact ⟨hregs, rfl, rfl, rfl, rfl, rfl, fun _ => rfl, .inl ⟨rfl, rfl⟩⟩
    | _ => cases hi

/-- Settles O45: the seven instructions are those with a result register. -/
theorem registerInstructionsFrame : Obligations.RegisterInstructionsFrame := by
  intro s t a b h
  rcases h with h | h | h | h | h | h | h <;> exact exec_frame_of_resultByte rfl h

/-! ### Which instruction writes what -/

/-- Settles O51: a fault and a skipped opcode change none of these but the diagnostic stream, and a commit changes each
only where its row says so. -/
theorem onlyTheseInstructionsWrite : Obligations.OnlyTheseInstructionsWrite := by
  intro s t e
  have hrun := (step_cases e).1
  rcases step_raises_or_skips_or_commits e with ⟨r, rfl⟩ | ⟨hl, rfl⟩ | ⟨i, hl, hd, hc⟩
  · simp
  · simp [hl, hrun]
  · rw [hl]
    refine ⟨fun h => ?_, fun h => ?_, fun h => ?_, fun h => ?_, fun h => ?_, fun h => ?_, fun r h => ?_, hc.policy_eq⟩
    · rw [(hc.fl_cases.resolve_left h).1]
    · exact ⟨_, hc.sp_cases.resolve_left h, rfl⟩
    · exact ⟨_, (hc.mem_cases.resolve_left h).1, rfl⟩
    · rw [hc.prn_cases.resolve_left h]
    · exact absurd hc.diag_eq h
    · rcases hc.run_cases with hk | ⟨hm, -⟩
      · simp [hk, hrun] at h
      · rw [hm]
    · obtain ⟨hop, hm⟩ := (hc.reg_cases r).resolve_left h
      have ha := decode_operands_head hd hop
      have hbyte : s.readByte (s.pc.toNat + 1) = regByte r := by
        by_cases hlt : s.pc.toNat + 1 < 256
        · simpa [readAhead_some hlt] using ha
        · simp [readAhead_none (s := s) (not_lt.mp hlt)] at ha
      exact ⟨hbyte, _, hm, rfl⟩

/-! ### The streams -/

/-- `s` with other contents in the two output streams. -/
def State.withStreams (s : State) (p : List Byte) (d : List DiagRecord) : State := { s with prn := p, diag := d }

section Blind
variable (p : List Byte) (d : List DiagRecord)

@[simp] theorem withStreams_pc (s : State) : (s.withStreams p d).pc = s.pc := rfl
@[simp] theorem withStreams_policy (s : State) : (s.withStreams p d).policy = s.policy := rfl
@[simp] theorem advance_withStreams (s : State) (n : Nat) :
    (s.withStreams p d).advance n = (s.advance n).withStreams p d := rfl

/-- A push does not look at the streams. -/
theorem push_withStreams (s : State) (v : Byte) :
    (s.withStreams p d).push v = (s.push v).map (State.withStreams · p d) := by
  rcases push_cases s v with ⟨h, hp⟩ | ⟨h, hp⟩
  · rw [hp, push_ok (s := s.withStreams p d) v h]; rfl
  · rw [hp, push_error (s := s.withStreams p d) v h]; rfl

/-- A pop does not look at the streams. -/
theorem pop_withStreams (s : State) :
    (s.withStreams p d).pop = s.pop.map fun q => (q.1, q.2.withStreams p d) := by
  rcases pop_cases s with ⟨h, hp⟩ | ⟨h, hp⟩
  · rw [hp, pop_ok (s := s.withStreams p d) h]; rfl
  · rw [hp, pop_error (s := s.withStreams p d) h]; rfl

variable {p d}

/-- A commit on other streams, of a handler's answer that is the same on other streams. -/
theorem commit_withStreams {h h' : Except Raised State} (hh : h' = h.map (State.withStreams · p d))
    (e : commit s h = .next t) : commit (s.withStreams p d) h' = .next (t.withStreams p d) := by
  subst hh
  cases h <;> cases e <;> rfl

/-- Format `R` with a handler that does not look at the streams. -/
theorem runR_withStreams {a : Byte} {h : Reg → State → Except Raised State}
    (hh : ∀ ra t, h ra (t.withStreams p d) = (h ra t).map (State.withStreams · p d)) (e : runR s a h = .next t) :
    runR (s.withStreams p d) a h = .next (t.withStreams p d) := by
  refine commit_withStreams ?_ e
  cases regOperand a with
  | error r => rfl
  | ok ra => exact hh ra (s.advance 2)

/-- Format `RR` with a handler that does not look at the streams. -/
theorem runRR_withStreams {a b : Byte} {h : Reg → Reg → State → Except Raised State}
    (hh : ∀ ra rb t, h ra rb (t.withStreams p d) = (h ra rb t).map (State.withStreams · p d))
    (e : runRR s a b h = .next t) : runRR (s.withStreams p d) a b h = .next (t.withStreams p d) := by
  refine commit_withStreams ?_ e
  cases regOperand a with
  | error r => rfl
  | ok ra =>
    cases regOperand b with
    | error r => rfl
    | ok rb => exact hh ra rb (s.advance 3)

/-- Format `RI` with a handler that does not look at the streams. -/
theorem runRI_withStreams {a b : Byte} {h : Reg → Byte → State → Except Raised State}
    (hh : ∀ ra v t, h ra v (t.withStreams p d) = (h ra v t).map (State.withStreams · p d))
    (e : runRI s a b h = .next t) : runRI (s.withStreams p d) a b h = .next (t.withStreams p d) := by
  refine commit_withStreams ?_ e
  cases regOperand a with
  | error r => rfl
  | ok ra => exact hh ra b (s.advance 3)

/-- Every instruction but PRN does the same on other streams and leaves them alone. -/
theorem exec_withStreams (hi : i.mnemonic ≠ .PRN) (e : exec i s = .next t) :
    exec i (s.withStreams p d) = .next (t.withStreams p d) := by
  cases i with
  | prn a => exact absurd rfl hi
  | hlt => cases e; rfl
  | ldi a imm => rw [exec_ldi] at e ⊢; exact runRI_withStreams (fun _ _ _ => rfl) e
  | add a b => rw [exec_add] at e ⊢; exact runRR_withStreams (fun _ _ _ => rfl) e
  | mul a b => rw [exec_mul] at e ⊢; exact runRR_withStreams (fun _ _ _ => rfl) e
  | and a b => rw [exec_and] at e ⊢; exact runRR_withStreams (fun _ _ _ => rfl) e
  | cmp a b => rw [exec_cmp] at e ⊢; exact runRR_withStreams (fun _ _ _ => rfl) e
  | inc a => rw [exec_inc] at e ⊢; exact runR_withStreams (fun _ _ => rfl) e
  | dec a => rw [exec_dec] at e ⊢; exact runR_withStreams (fun _ _ => rfl) e
  | jmp a => rw [exec_jmp] at e ⊢; exact runR_withStreams (fun _ _ => rfl) e
  | div a b =>
    rw [exec_div] at e ⊢
    refine runRR_withStreams (fun ra rb u => ?_) e
    rw [apply_ite (Except.map _)]; rfl
  | jeq a =>
    rw [exec_jeq] at e ⊢
    refine runR_withStreams (fun ra u => ?_) e
    rw [Except.map, apply_ite (State.withStreams · p d)]; rfl
  | push a => rw [exec_push] at e ⊢; exact runR_withStreams (fun ra u => push_withStreams p d u (u.reg ra)) e
  | pop a =>
    rw [exec_pop] at e ⊢
    refine runR_withStreams (fun ra u => ?_) e
    rw [pop_withStreams]
    cases u.pop <;> rfl
  | ret =>
    rw [exec_ret] at e ⊢
    refine commit_withStreams ?_ e
    rw [advance_withStreams, pop_withStreams]
    cases (s.advance 1).pop <;> rfl
  | call a =>
    rw [exec_call] at e ⊢
    refine runR_withStreams (fun ra u => ?_) e
    rw [withStreams_pc]
    cases returnByte u.pc.toNat with
    | error r => rfl
    | ok ret =>
      simp only [push_withStreams]
      cases u.push ret <;> rfl

end Blind

/-- From `s` to `t`, `f` appends at most one item in all to the streams, and does the same and appends the same with any
other streams in their place (R26, R139; decision D20). -/
def AppendsOnly (f : State → Out) (s t : State) : Prop :=
  ∃ p' d', t.prn = s.prn ++ p' ∧ t.diag = s.diag ++ d' ∧ p'.length + d'.length ≤ 1 ∧
    ∀ p d, f (s.withStreams p d) = .next (t.withStreams (p ++ p') (d ++ d'))

/-- What does the same on all streams, its own among them, appends nothing. -/
theorem appendsOnly_of_withStreams {f : State → Out} (e : f s = .next t)
    (h : ∀ p d, f (s.withStreams p d) = .next (t.withStreams p d)) : AppendsOnly f s t := by
  have hown : t = t.withStreams s.prn s.diag := Host.Outcome.next.inj (e.symm.trans (h s.prn s.diag))
  refine ⟨[], [], ?_, ?_, by simp, by simpa using h⟩
  · rw [hown, List.append_nil]; rfl
  · rw [hown, List.append_nil]; rfl

/-- It is enough that the two functions agree on `s` with any streams. -/
theorem AppendsOnly.congr {f g : State → Out} (h : AppendsOnly f s t)
    (hg : ∀ p d, g (s.withStreams p d) = f (s.withStreams p d)) : AppendsOnly g s t := by
  obtain ⟨p', d', hprn, hdiag, hlen, hf⟩ := h
  exact ⟨p', d', hprn, hdiag, hlen, fun p d => (hg p d).trans (hf p d)⟩

/-- Every instruction appends at most one item and reads no stream. -/
theorem exec_appendsOnly (e : exec i s = .next t) : AppendsOnly (exec i) s t := by
  by_cases hi : i.mnemonic = .PRN
  swap
  · exact appendsOnly_of_withStreams e fun p d => exec_withStreams hi e
  cases i <;> cases hi
  next a =>
  rcases runR_cases (exec_prn a s ▸ e) with ⟨ra, rfl, he⟩ | ⟨ha, rfl⟩
  · cases he
    refine ⟨[s.reg ra], [], rfl, (List.append_nil _).symm, le_rfl, fun p d => ?_⟩
    rw [exec_prn, runR_valid, List.append_nil]; rfl
  · exact appendsOnly_of_withStreams e fun p d => by
      rw [exec_prn, runR_bad _ ha]; rfl

/-- Bytes that are no instruction lead to at most one diagnostic, and no stream is read. -/
theorem decodeFailure_appendsOnly {x : DecodeError} (e : decodeFailure x s = .next t) :
    AppendsOnly (decodeFailure x) s t := by
  cases x with
  | noOpcode | missingOperand k => cases e; exact appendsOnly_of_withStreams rfl fun _ _ => rfl
  | unknownOpcode op =>
    cases hp : s.policy with
    | skip =>
      have hskip : ∀ p d, unknownOpcode op (s.withStreams p d) =
          .next (((s.withStreams p d).diagnose s.pc op).advance 1) := by simp [unknownOpcode, hp]
      cases (hskip s.prn s.diag).symm.trans e
      refine ⟨[], [⟨s.pc, op⟩], (List.append_nil _).symm, rfl, le_rfl, fun p d => ?_⟩
      rw [List.append_nil]; exact hskip p d
    | fault =>
      have hfault : ∀ p d, unknownOpcode op (s.withStreams p d) =
          .next ((s.withStreams p d).raise ⟨.unknownOpcode, .opcode op⟩) := by simp [unknownOpcode, hp]
      cases (hfault s.prn s.diag).symm.trans e
      exact appendsOnly_of_withStreams e hfault

/-- Every step appends at most one item and reads no stream: the bytes it fetches do not depend on them. -/
theorem step_appendsOnly (e : step s = .next t) : AppendsOnly step s t := by
  have hr := (step_cases e).1
  by_cases hp : s.pc.toNat < 256
  swap
  · have hout := fun p d => step_outside (s := s.withStreams p d) hr (not_lt.mp hp)
    cases (hout s.prn s.diag).symm.trans e
    exact appendsOnly_of_withStreams e hout
  cases hd : decode (s.readByte s.pc.toNat) (s.readAhead (s.pc.toNat + 1)) (s.readAhead (s.pc.toNat + 2)) with
  | error x =>
    have hstep := fun p d => step_of_decode_error (s := s.withStreams p d) hr hp hd
    exact (decodeFailure_appendsOnly ((hstep s.prn s.diag).symm.trans e)).congr hstep
  | ok i =>
    have hstep := fun p d => step_of_decode_ok (s := s.withStreams p d) hr hp hd
    exact (exec_appendsOnly ((hstep s.prn s.diag).symm.trans e)).congr hstep

/-- Settles O52. -/
theorem streamsAreAppendedToAndNeverRead : Obligations.StreamsAreAppendedToAndNeverRead := by
  intro s t p d e
  obtain ⟨p', d', hprn, hdiag, hlen, hstep⟩ := step_appendsOnly e
  exact ⟨p', d', hprn, hdiag, hlen, hstep p d⟩

end Machine
end Sys2Proof
end

/-! ## Memory (spec/20_memory.md) -/

section
namespace Sys2Proof

/-! ### The canonical form determines memory -/

namespace Machine

theorem Memory.wfFrom_cons {lo k : Nat} {v : Byte} {m : Memory} :
    Memory.wfFrom lo ((k, v) :: m) = true ↔
      lo ≤ k ∧ k < Config.memorySize ∧ v ≠ 0#8 ∧ Memory.wfFrom (k + 1) m = true := by
  simp [Memory.wfFrom, and_assoc]

@[simp] theorem Memory.read_cons_self (k : Nat) (v : Byte) (m : Memory) : Memory.read ((k, v) :: m) k = v := if_pos rfl

theorem Memory.read_cons_ne {k a : Nat} (h : k ≠ a) (v : Byte) (m : Memory) :
    Memory.read ((k, v) :: m) a = m.read a := if_neg h

/-- A canonical memory reads 0 below its lowest entry. -/
theorem Memory.read_eq_zero_of_lt {m : Memory} {lo a : Nat} (hm : Memory.wfFrom lo m = true) (ha : a < lo) :
    m.read a = 0#8 := by
  induction m generalizing lo with
  | nil => rfl
  | cons c m ih =>
    obtain ⟨hk, -, -, htail⟩ := Memory.wfFrom_cons.mp hm
    rw [Memory.read_cons_ne (by omega)]
    exact ih htail (by omega)

/-- The first entry of a canonical memory is its lowest cell that does not read 0. -/
theorem Memory.head_le_of_read_ne_zero {lo k a : Nat} {v : Byte} {m : Memory}
    (hm : Memory.wfFrom lo ((k, v) :: m) = true) (ha : Memory.read ((k, v) :: m) a ≠ 0#8) : k ≤ a := by
  by_contra hlt
  obtain ⟨-, hk, hv, htail⟩ := Memory.wfFrom_cons.mp hm
  exact ha (Memory.read_eq_zero_of_lt (Memory.wfFrom_cons.mpr ⟨le_rfl, hk, hv, htail⟩) (not_le.mp hlt))

/-- Canonical memories that read alike are equal: their first entries are both at the lowest cell that does not read 0,
and below its own entries each tail reads 0. -/
theorem Memory.eq_of_read_eq {m n : Memory} {lo lo' : Nat} (hm : Memory.wfFrom lo m = true)
    (hn : Memory.wfFrom lo' n = true) (h : ∀ a, m.read a = n.read a) : m = n := by
  induction m generalizing n lo lo' with
  | nil =>
    cases n with
    | nil => rfl
    | cons d n =>
      obtain ⟨-, -, hw, -⟩ := Memory.wfFrom_cons.mp hn
      exact absurd ((Memory.read_cons_self ..).symm.trans (h d.1).symm) hw
  | cons c m ih =>
    obtain ⟨k, v⟩ := c
    obtain ⟨-, -, hv, hmtail⟩ := Memory.wfFrom_cons.mp hm
    have hk : Memory.read n k = v := by rw [← h, Memory.read_cons_self]
    cases n with
    | nil => exact absurd hk.symm hv
    | cons d n =>
      obtain ⟨l, w⟩ := d
      obtain ⟨-, -, hw, hntail⟩ := Memory.wfFrom_cons.mp hn
      have hl : Memory.read ((k, v) :: m) l = w := by rw [h, Memory.read_cons_self]
      obtain rfl : k = l := le_antisymm (Memory.head_le_of_read_ne_zero hm (hl ▸ hw))
        (Memory.head_le_of_read_ne_zero hn (hk ▸ hv))
      obtain rfl : v = w := by rw [← hl, Memory.read_cons_self]
      rw [ih hmtail hntail fun a => ?_]
      by_cases ha : k = a
      · rw [Memory.read_eq_zero_of_lt hmtail (by omega), Memory.read_eq_zero_of_lt hntail (by omega)]
      · rw [← Memory.read_cons_ne ha v m, h, Memory.read_cons_ne ha]

/-- Settles O27. -/
theorem memoriesThatReadAlikeAreEqual : Obligations.MemoriesThatReadAlikeAreEqual :=
  fun _ _ hm hn h => Memory.eq_of_read_eq hm hn h

/-! ### MemRead, MemWrite and the load -/

variable {s t : State} {i : Instr}

theorem memRead_ok {a : Nat} (h : a < 256) : s.memRead a = .ok (s.readByte a) := if_pos h

theorem memRead_error {a : Nat} (h : 256 ≤ a) : s.memRead a = .error (outOfBoundsAt a) := if_neg (not_lt.mpr h)

theorem memWrite_ok {a : Nat} (v : Byte) (h : a < 256) :
    s.memWrite a v = .ok { s with mem := s.mem.write a v } := if_pos h

theorem memWrite_error {a : Nat} (v : Byte) (h : 256 ≤ a) : s.memWrite a v = .error (outOfBoundsAt a) :=
  if_neg (not_lt.mpr h)

/-- Settles O25. -/
theorem memReadOfR41 : Obligations.MemReadOfR41 :=
  fun _ _ => ⟨memRead_ok, memRead_error⟩

/-- Settles O26: read-back, frame and canonical form are those of `Memory.write`. -/
theorem memWriteOfR42 : Obligations.MemWriteOfR42 := by
  intro s a v hwf
  refine ⟨fun ha => ⟨_, memWrite_ok v ha, ?_, fun b hb => ?_, ?_, rfl⟩, memWrite_error v⟩
  · exact Memory.read_write_self s.mem a v hwf
  · exact Memory.read_write_ne s.mem v hb
  · exact Memory.write_wf v ha hwf

/-- An image that fits, placed from address 0 into memory as reset left it, reads as the image followed by zeros. -/
theorem Memory.place_zero_read {image : List Byte} (h : image.length ≤ 256) (a : Nat) :
    (Memory.place 0 image []).read a = image.getD a 0#8 := by
  rw [Memory.place_read image 0 [] a rfl]
  by_cases ha : a < image.length
  · rw [if_pos ⟨Nat.zero_le a, by omega, lt_of_lt_of_le ha h⟩]; rfl
  · rw [if_neg (by omega), List.getD_eq_default _ _ (not_lt.mp ha)]; rfl

/-- Settles O2. -/
theorem launchCopiesImageFromAddressZero : Obligations.LaunchCopiesImageFromAddressZero := by
  intro policy image
  refine ⟨fun h => ⟨_, if_pos h, fun a => ?_, rfl⟩, fun h => if_neg (not_le.mpr h)⟩
  exact Memory.place_zero_read h a

end Machine

/-! ### The instruction whose bytes stand at `pc` -/

/-- An instruction's opcode with its operand bytes read ahead decodes to it; a byte the arity does not select may be
anything (R63, R75). -/
theorem decode_opcode_operands (i : Instr) {oa ob : Option Byte} (ha : ∀ b, i.operands[0]? = some b → oa = some b)
    (hb : ∀ b, i.operands[1]? = some b → ob = some b) : decode i.mnemonic.opcode oa ob = .ok i := by
  cases i with
  | ldi a b | add a b | mul a b | div a b | and a b | cmp a b =>
    rw [ha a rfl, hb b rfl]; rfl
  | inc a | dec a | prn a | push a | pop a | call a | jmp a | jeq a =>
    rw [ha a rfl]; rfl
  | ret | hlt => rfl

namespace Machine

variable {s t : State} {i : Instr}

/-- Each of the bytes that stand at an address is read ahead at its offset (R72). -/
theorem readAhead_of_bytesAt {a k : Nat} {b : Byte} {bs : List Byte} (h : s.bytesAt a bs = true)
    (hk : bs[k]? = some b) : s.readAhead (a + k) = some b := by
  induction bs generalizing a k with
  | nil => cases hk
  | cons c bs ih =>
    obtain ⟨ha, hc, htail⟩ := bytesAt_cons.mp h
    cases k with
    | zero =>
      cases hk
      rw [Nat.add_zero, readAhead_some ha, hc]
    | succ k =>
      rw [Nat.add_comm k, ← Nat.add_assoc]
      exact ih htail hk

/-- Settles O12: the opcode and the operand bytes that the step reads are those of the encoding. -/
theorem instructionAtPcRuns : Obligations.InstructionAtPcRuns := by
  intro s i ⟨hr, hbytes⟩
  obtain ⟨hp, hop, -⟩ := bytesAt_cons.mp hbytes
  have hd := decode_opcode_operands i (oa := s.readAhead (s.pc.toNat + 1)) (ob := s.readAhead (s.pc.toNat + 2))
    (fun _ hb => readAhead_of_bytesAt (k := 1) hbytes hb) (fun _ hb => readAhead_of_bytesAt (k := 2) hbytes hb)
  exact step_of_decode_ok hr hp (hop ▸ hd)

/-! ### The pushed cell -/

/-- A commit stores nothing, or a byte to the cell a push stores to (R43). -/
theorem Commits.mem_eq_or_pushed (h : Commits s i t) :
    t.mem = s.mem ∨ s.sp ≠ 0#8 ∧ ∃ v, t.mem = s.mem.write (s.sp - 1#8).toNat v := by
  cases h with
  | push a hsp => exact .inr ⟨hsp, _, rfl⟩
  | call a ret hsp => exact .inr ⟨hsp, _, rfl⟩
  | _ => exact .inl rfl

/-- No commit changes a byte of memory outside the cell a push stores to (R43). -/
theorem Commits.keepsMemoryButPushSlot (h : Commits s i t) : keepsMemoryButPushSlot s t := by
  rcases h.mem_eq_or_pushed with hm | ⟨hsp, v, hm⟩
  · have hall : ∀ a, t.readByte a = s.readByte a := fun a => congrArg (Memory.read · a) hm
    exact ⟨fun _ _ a _ => hall a, fun _ _ => hall⟩
  · rw [Machine.keepsMemoryButPushSlot, pushSlot_ok hsp]
    refine ⟨fun slot hslot a ha => ?_, fun r hr => by cases hr⟩
    cases hslot
    rw [State.readByte, hm]
    exact Memory.read_write_ne s.mem v ha

/-- The frame of the instructions that push. -/
theorem exec_frame_of_push_or_call (hi : i.mnemonic = .PUSH ∨ i.mnemonic = .CALL) (e : exec i s = .next t) :
    keepsRegsBut none s t ∧ t.fl = s.fl ∧ t.prn = s.prn ∧ t.diag = s.diag ∧ t.policy = s.policy ∧
    keepsMemoryButPushSlot s t ∧ keepsRunUnlessFault s t := by
  rcases exec_raises_or_commits e with ⟨r, rfl⟩ | hc
  · exact ⟨fun _ _ => rfl, rfl, rfl, rfl, rfl, ⟨fun _ _ _ _ => rfl, fun _ _ _ => rfl⟩, .inr ⟨r, rfl⟩⟩
  · have hreg : ∀ r, t.reg r = s.reg r := fun r =>
      (hc.reg_cases r).resolve_right fun ⟨_, hm⟩ => by rcases hi with h | h <;> simp [h] at hm
    have hfl : t.fl = s.fl := hc.fl_cases.resolve_right fun ⟨hm, _⟩ => by simp [hm] at hi
    have hprn : t.prn = s.prn := hc.prn_cases.resolve_right fun hm => by simp [hm] at hi
    have hrun : t.run = s.run := hc.run_cases.resolve_right fun ⟨hm, _⟩ => by simp [hm] at hi
    exact ⟨fun r _ => hreg r, hfl, hprn, hc.diag_eq, hc.policy_eq, hc.keepsMemoryButPushSlot,
      .inl ⟨hrun, hc.fault_eq⟩⟩

/-- Settles O48. -/
theorem pushAndCallFrame : Obligations.PushAndCallFrame := by
  rintro s t a (h | h)
  · exact exec_frame_of_push_or_call (.inl rfl) h
  · exact exec_frame_of_push_or_call (.inr rfl) h

/-- PUSH of a register where `sp` is not 0 (R105). -/
theorem exec_push_ok (a : Reg) (h : s.sp ≠ 0#8) :
    exec (.push (regByte a)) s =
      .next { s.advance 2 with sp := s.sp - 1#8, mem := s.mem.write (s.sp - 1#8).toNat (s.reg a) } := by
  rw [exec_push, runR_valid, push_ok (s := s.advance 2) _ h]; rfl

/-- The address a push stores to, as an integer (R105). -/
theorem byte_sub_one_toNat {b : Byte} (h : b ≠ 0#8) : (b - 1#8).toNat = b.toNat - 1 := by
  bv_omega

/-- Settles O53: the fetch reads the cell the push wrote. -/
theorem pushedByteIsFetchedNext : Obligations.PushedByteIsFetchedNext := by
  intro s t a hwf _ hsp e hpc
  rw [← byte_sub_one_toNat hsp] at hpc
  have hp : t.pc.toNat < 256 := hpc ▸ byte_lt_memorySize _
  have hread : t.readByte t.pc.toNat = s.reg a := by
    rw [hpc]
    cases (exec_push_ok a hsp).symm.trans e
    exact Memory.read_write_self s.mem _ _ hwf
  exact ⟨_, fetch_ok hp, hread⟩

end Machine
end Sys2Proof
end

/-! ## The encoding (spec/30_encoding.md) -/

section
namespace Sys2Proof

/-! ### The round trip -/

/-- The decoder reads the opcode and the operand bytes of an encoding, and nothing of what stands behind them (R63). -/
theorem decodeBytes_encode_append (i : Instr) (rest : List Byte) : decodeBytes (encode i ++ rest) = .ok i := by
  have hkeep : ∀ (k : Nat) (b : Byte), i.operands[k]? = some b → (i.operands ++ rest)[k]? = some b := by
    intro k b hb
    obtain ⟨hk, -⟩ := List.getElem?_eq_some_iff.mp hb
    rw [List.getElem?_append_left hk, hb]
  exact decode_opcode_operands i (hkeep 0) (hkeep 1)

/-- Settles O8: the bytes that follow are not looked at. -/
theorem decodeOfEncodeIsTheInstruction : Obligations.DecodeOfEncodeIsTheInstruction :=
  decodeBytes_encode_append

/-- The operand bytes of a decoded instruction are the first bytes behind the opcode, as many as the arity says (R75). -/
theorem operands_prefix_of_decode {ir : Byte} {rest : List Byte} {i : Instr}
    (h : decode ir rest[0]? rest[1]? = .ok i) : i.operands <+: rest := by
  rcases decode_cases ir rest[0]? rest[1]? with ⟨-, e⟩ | ⟨m, -, ⟨-, -, e⟩ | ⟨-, -, -, e⟩ | ⟨h1, h2, e⟩⟩ <;>
    rw [e] at h <;> cases h
  rw [build_operands]
  rcases arity_cases m with hm | hm | hm <;> rw [hm] at h1 h2 ⊢
  · exact List.nil_prefix
  · cases rest with
    | nil => simp at h1
    | cons a tl => simp
  · match rest with
    | [] => simp at h1
    | [_] => simp at h2
    | _ :: _ :: _ => simp

/-- The encoding is as long as the instruction (R55, R64). -/
@[simp] theorem encode_length (i : Instr) : (encode i).length = i.length := by cases i <;> rfl

/-- Settles O9: the opcode byte is the row's and the operand bytes stand behind it. -/
theorem decodedBytesBeginWithTheEncoding : Obligations.DecodedBytesBeginWithTheEncoding := by
  intro bs i h
  refine ⟨?_, encode_length i⟩
  cases bs with
  | nil => cases h
  | cons ir rest =>
    obtain ⟨tail, htail⟩ := operands_prefix_of_decode h
    have hop : i.mnemonic.opcode = ir := opcode_of_lookup (decode_ok h).1
    exact ⟨tail, by rw [encode, hop, List.cons_append, htail]⟩

/-! ### The opcode table -/

/-- A byte selects no row exactly when it is none of the rows' opcodes (R59, R62). -/
theorem lookup_eq_none {op : Byte} : lookup op = none ↔ op ∉ dispatchTable.map Mnemonic.opcode := by
  simp [lookup]

/-- The decoder reports an unknown opcode exactly where the byte selects no row (R62). -/
theorem decode_eq_unknownOpcode {ir : Byte} {oa ob : Option Byte} :
    decode ir oa ob = .error (.unknownOpcode ir) ↔ lookup ir = none := by
  refine ⟨fun h => ?_, fun h => decode_unknown h oa ob⟩
  rcases decode_cases ir oa ob with ⟨hl, -⟩ | ⟨m, -, ⟨-, -, e⟩ | ⟨-, -, -, e⟩ | ⟨-, -, e⟩⟩
  · exact hl
  all_goals rw [e] at h; cases h

/-- Settles O10: the sixteen bytes are the opcode column of the table, in its order. -/
theorem bytesOutsideTheTableAreUnknown : Obligations.BytesOutsideTheTableAreUnknown :=
  fun _ _ => lookup_eq_none.symm.trans decode_eq_unknownOpcode.symm

/-- Settles O6, row by row. -/
theorem arityPartitionOfR60 : Obligations.ArityPartitionOfR60 := by
  refine ⟨?_, ?_, ?_⟩ <;> intro m <;> cases m <;> decide

/-- Settles O7: each word is an encoding, followed by nothing. -/
theorem wordsOfTheEncodingTableDecode : Obligations.WordsOfTheEncodingTableDecode :=
  ⟨decodeBytes_encode_append (.ldi 0 8) [], decodeBytes_encode_append (.add 0 1) [],
    decodeBytes_encode_append (.cmp 6 7) [], decodeBytes_encode_append (.prn 5) [],
    decodeBytes_encode_append (.push 2) [], decodeBytes_encode_append (.jeq 3) [],
    decodeBytes_encode_append .hlt []⟩

/-! ### The register operands -/

theorem validReg_eq_false {b : Byte} : validReg b = false ↔ 8 ≤ b.toNat := by simp [validReg]

@[simp] theorem validReg_regByte (r : Reg) : validReg (regByte r) = true := by
  rw [validReg, Machine.regByte_toNat]; exact decide_eq_true r.isLt

namespace Machine

variable {s t : State}

/-- The state holds a record of InvalidRegister (R120, R122). -/
def State.RecordsInvalidRegister (t : State) : Prop := ∃ f, t.fault = some f ∧ f.cause = .invalidRegister

/-- What a handler answers, in a state without a record, when it raises no InvalidRegister itself. -/
def NoInvalidRegister : Except Raised State → Prop
  | .ok u => u.fault = none
  | .error r => r.cause ≠ .invalidRegister

/-- Committing such an answer records no InvalidRegister. -/
theorem not_recordsInvalidRegister_of_commit {x : Except Raised State} (hx : NoInvalidRegister x)
    (e : commit s x = .next t) : ¬ t.RecordsInvalidRegister := by
  rintro ⟨f, hf, hc⟩
  rcases commit_cases e with rfl | ⟨r, rfl, rfl⟩
  · have ht : t.fault = none := hx
    simp [ht] at hf
  · cases hf; exact hx hc

/-- Format `R` records InvalidRegister exactly for a byte that names no register. -/
theorem runR_recordsInvalidRegister {a : Byte} {h : Reg → State → Except Raised State} (e : runR s a h = .next t)
    (hh : ∀ ra, NoInvalidRegister (h ra (s.advance 2))) :
    [a].all validReg = false ↔ t.RecordsInvalidRegister := by
  rcases runR_cases e with ⟨ra, rfl, he⟩ | ⟨ha, rfl⟩
  · exact iff_of_false (by simp) (not_recordsInvalidRegister_of_commit (hh ra) he)
  · exact iff_of_true (by simp [validReg_eq_false.mpr ha]) ⟨_, rfl, rfl⟩

/-- Format `RI` does so too, whatever the immediate (R58). -/
theorem runRI_recordsInvalidRegister {a imm : Byte} {h : Reg → Byte → State → Except Raised State}
    (e : runRI s a imm h = .next t) (hh : ∀ ra, NoInvalidRegister (h ra imm (s.advance 3))) :
    [a].all validReg = false ↔ t.RecordsInvalidRegister := by
  rcases runRI_cases e with ⟨ra, rfl, he⟩ | ⟨ha, rfl⟩
  · exact iff_of_false (by simp) (not_recordsInvalidRegister_of_commit (hh ra) he)
  · exact iff_of_true (by simp [validReg_eq_false.mpr ha]) ⟨_, rfl, rfl⟩

/-- Format `RR` does so where either byte names no register. -/
theorem runRR_recordsInvalidRegister {a b : Byte} {h : Reg → Reg → State → Except Raised State}
    (e : runRR s a b h = .next t) (hh : ∀ ra rb, NoInvalidRegister (h ra rb (s.advance 3))) :
    [a, b].all validReg = false ↔ t.RecordsInvalidRegister := by
  rcases regOperand_cases a with ⟨ra, rfl, -⟩ | ⟨ha, -⟩
  · rcases regOperand_cases b with ⟨rb, rfl, -⟩ | ⟨hb, -⟩
    · rw [runRR_valid] at e
      exact iff_of_false (by simp) (not_recordsInvalidRegister_of_commit (hh ra rb) e)
    · cases (runRR_bad_second s ra hb h).symm.trans e
      exact iff_of_true (by simp [validReg_eq_false.mpr hb]) ⟨_, rfl, rfl⟩
  · cases (runRR_bad_first s ha h).symm.trans e
    exact iff_of_true (by simp [validReg_eq_false.mpr ha]) ⟨_, rfl, rfl⟩

/-- A push raises OutOfBounds only (R105). -/
theorem push_noInvalidRegister (hs : s.fault = none) (v : Byte) : NoInvalidRegister (s.push v) := by
  rcases push_cases s v with ⟨-, hp⟩ | ⟨-, hp⟩ <;> rw [hp]
  · exact hs
  · nofun

/-- Settles O19: the formats check the register operands, and no handler raises InvalidRegister. -/
theorem invalidRegisterExactlyWhenIllFormed : Obligations.InvalidRegisterExactlyWhenIllFormed := by
  intro s i t e hs
  cases i with
  | ldi a imm => exact runRI_recordsInvalidRegister ((exec_ldi a imm s).symm.trans e) fun _ => hs
  | add a b => exact runRR_recordsInvalidRegister ((exec_add a b s).symm.trans e) fun _ _ => hs
  | mul a b => exact runRR_recordsInvalidRegister ((exec_mul a b s).symm.trans e) fun _ _ => hs
  | and a b => exact runRR_recordsInvalidRegister ((exec_and a b s).symm.trans e) fun _ _ => hs
  | cmp a b => exact runRR_recordsInvalidRegister ((exec_cmp a b s).symm.trans e) fun _ _ => hs
  | div a b =>
    refine runRR_recordsInvalidRegister ((exec_div a b s).symm.trans e) fun ra rb => ?_
    split
    · nofun
    · exact hs
  | inc a => exact runR_recordsInvalidRegister ((exec_inc a s).symm.trans e) fun _ => hs
  | dec a => exact runR_recordsInvalidRegister ((exec_dec a s).symm.trans e) fun _ => hs
  | prn a => exact runR_recordsInvalidRegister ((exec_prn a s).symm.trans e) fun _ => hs
  | jmp a => exact runR_recordsInvalidRegister ((exec_jmp a s).symm.trans e) fun _ => hs
  | jeq a =>
    refine runR_recordsInvalidRegister ((exec_jeq a s).symm.trans e) fun ra => ?_
    split <;> exact hs
  | push a =>
    exact runR_recordsInvalidRegister ((exec_push a s).symm.trans e) fun _ =>
      push_noInvalidRegister (s := s.advance 2) hs _
  | pop a =>
    refine runR_recordsInvalidRegister ((exec_pop a s).symm.trans e) fun ra => ?_
    rcases pop_cases (s.advance 2) with ⟨-, hp⟩ | ⟨-, hp⟩ <;> rw [hp]
    · exact hs
    · nofun
  | call a =>
    refine runR_recordsInvalidRegister ((exec_call a s).symm.trans e) fun ra => ?_
    by_cases hret : (s.advance 2).pc.toNat < 256
    · rw [returnByte_ok hret]
      rcases push_cases (s.advance 2) (BitVec.ofNat 8 (s.advance 2).pc.toNat) with ⟨-, hp⟩ | ⟨-, hp⟩ <;>
        simp only [hp]
      · exact hs
      · nofun
    · rw [returnByte_error (not_lt.mp hret)]
      nofun
  | ret =>
    refine iff_of_false (by decide) (not_recordsInvalidRegister_of_commit ?_ ((exec_ret s).symm.trans e))
    rcases pop_cases (s.advance 1) with ⟨-, hp⟩ | ⟨-, hp⟩ <;> rw [hp]
    · exact hs
    · nofun
  | hlt =>
    have hx : NoInvalidRegister (.ok (s.advance 1).halt) := hs
    exact iff_of_false (by decide) (not_recordsInvalidRegister_of_commit (s := s) hx e)

end Machine
end Sys2Proof
end

/-! ## The step (spec/40_step_cycle.md) -/

section
namespace Sys2Proof.Machine

variable {s : State}

/-! ### A running machine always has a step -/

/-- An unknown opcode under `skip` (R74). -/
theorem unknownOpcode_skip (hpol : s.policy = .skip) (op : Byte) :
    unknownOpcode op s = .next ((s.diagnose s.pc op).advance 1) := by simp [unknownOpcode, hpol]

/-- An unknown opcode under `fault` (R74, R125). -/
theorem unknownOpcode_fault (hpol : s.policy = .fault) (op : Byte) :
    unknownOpcode op s = .next (s.raise ⟨.unknownOpcode, .opcode op⟩) := by simp [unknownOpcode, hpol]

/-- Bytes the decoder rejects still lead to a next state: a fault, or a skipped opcode (R74, R75). -/
theorem decodeFailure_isNext (x : DecodeError) (s : State) : ∃ t, decodeFailure x s = .next t := by
  cases x with
  | noOpcode => exact ⟨_, rfl⟩
  | missingOperand k => exact ⟨_, rfl⟩
  | unknownOpcode op =>
    cases hpol : s.policy with
    | skip => exact ⟨_, unknownOpcode_skip hpol op⟩
    | fault => exact ⟨_, unknownOpcode_fault hpol op⟩

/-- A running machine has a step, wherever `pc` stands and whatever the bytes there (R70). -/
theorem step_isNext (hr : s.run = .running) : ∃ t, step s = .next t := by
  rcases Nat.lt_or_ge s.pc.toNat 256 with hp | hp
  · cases hd : decode (s.readByte s.pc.toNat) (s.readAhead (s.pc.toNat + 1)) (s.readAhead (s.pc.toNat + 2)) with
    | error x => rw [step_of_decode_error hr hp hd]; exact decodeFailure_isNext x s
    | ok i => rw [step_of_decode_ok hr hp hd]; exact exec_isNext i s
  · exact ⟨_, step_outside hr hp⟩

/-- Settles O13. -/
theorem stepHappensExactlyWhenRunning : Obligations.StepHappensExactlyWhenRunning :=
  fun _ => ⟨⟨fun ⟨_, e⟩ => (step_cases e).1, step_isNext⟩, step_halted, step_faulted⟩

/-! ### What stands at `pc` -/

/-- The step on a row of the table: it raises for an operand byte beyond memory, or runs that row's instruction (R75,
R78). -/
theorem step_of_lookup_some (hr : s.run = .running) (hp : s.pc.toNat < 256) {m : Mnemonic}
    (hl : lookup (s.readByte s.pc.toNat) = some m) :
    (1 ≤ m.arity ∧ 256 ≤ s.pc.toNat + m.arity ∧ step s = .next (s.raise (outOfBoundsAt 256))) ∨
    (s.pc.toNat + m.arity < 256 ∧ ∃ i : Instr, i.mnemonic = m ∧ step s = exec i s) := by
  obtain ⟨t, e⟩ := step_isNext hr
  obtain ⟨-, ⟨hout, -⟩ | ⟨-, hnone, -⟩ | ⟨-, hnone, -⟩ | ⟨-, m', hl', ha, hend, rfl⟩ | ⟨i, hroom, hl', -, he⟩⟩ :=
    step_cases e
  · omega
  · cases hl.symm.trans hnone
  · cases hl.symm.trans hnone
  · cases hl.symm.trans hl'
    exact .inl ⟨ha, hend, e⟩
  · cases hl.symm.trans hl'
    exact .inr ⟨hroom, i, rfl, e.trans he.symm⟩

/-- The step on a byte that selects no row (R74). -/
theorem step_of_lookup_none (hr : s.run = .running) (hp : s.pc.toNat < 256)
    (hl : lookup (s.readByte s.pc.toNat) = none) : step s = unknownOpcode (s.readByte s.pc.toNat) s :=
  step_of_decode_error hr hp (decode_unknown hl _ _)

/-- Settles O16: whether the step raises or runs the row is decided by whether `pc + arity` lies inside memory. -/
theorem missingOperandByteRaises : Obligations.MissingOperandByteRaises := by
  intro s m hr hp hl
  rcases step_of_lookup_some hr hp hl with ⟨ha, -, hraise⟩ | ⟨hroom, hrun⟩
  · exact ⟨fun _ => hraise, fun h0 => absurd ha (by omega)⟩
  · exact ⟨fun hend => absurd hroom (by omega), fun _ => hrun⟩

/-- Settles O17. -/
theorem unknownOpcodeFollowsThePolicy : Obligations.UnknownOpcodeFollowsThePolicy := fun _ hr hp hl =>
  ⟨fun hpol => (step_of_lookup_none hr hp hl).trans (unknownOpcode_skip hpol _),
    fun hpol => (step_of_lookup_none hr hp hl).trans (unknownOpcode_fault hpol _)⟩

/-- Settles O11. -/
theorem stepRunsTheDecodedInstruction : Obligations.StepRunsTheDecodedInstruction :=
  fun _ _ => step_of_decode_ok

/-! ### The fetch -/

/-- A fault taken with `pc` beyond memory records no opcode and no operand bytes (R23, R71). -/
theorem raise_outside (hp : 256 ≤ s.pc.toNat) (r : Raised) :
    s.raise r = { s with run := .faulted, fault := some ⟨r.cause, s.pc, none, none, none, r.info⟩ } := by
  rw [State.raise, readAhead_none hp, readAhead_none (by omega), readAhead_none (by omega)]

/-- Settles O14. -/
theorem opcodeFetchOfR71 : Obligations.OpcodeFetchOfR71 := fun _ hr =>
  ⟨fun hp => (step_outside hr hp).trans (congrArg _ (raise_outside hp _)), fun hp => ⟨_, fetch_ok hp, rfl⟩⟩

/-- Settles O15. -/
theorem readAheadSkipsOutOfBounds : Obligations.ReadAheadSkipsOutOfBounds :=
  fun _ hp => ⟨_, fetch_ok hp, rfl, rfl⟩

end Sys2Proof.Machine
end

/-! ## LDI (spec/41_ldi.md) -/

section
namespace Sys2Proof.Machine

/-- The bytes of a row are `1 + arity`; where the last of them lies beyond memory, the row's opcode raises (R75). -/
theorem missingOperandRaises_opcode (m : Mnemonic) : MissingOperandRaises m.opcode (1 + m.arity) := by
  intro s hr hp hend hop
  have hl : lookup (s.readByte s.pc.toNat) = some m := hop ▸ lookup_opcode m
  exact (missingOperandByteRaises s m hr hp hl).1 (by omega)

/-- LDI with a register, whatever the state and the immediate: the register holds the immediate unchanged, and `pc` has
passed the three bytes (R77, R85). -/
theorem exec_ldi_regByte (s : State) (r : Reg) (imm : Byte) :
    exec (.ldi (regByte r) imm) s = .next ((s.advance 3).setReg r imm) := by
  rw [exec_ldi, runRI_valid, commit_ok]

/-- Settles O29. -/
theorem ldiLoadsTheImmediate : Obligations.LdiLoadsTheImmediate := by
  refine ⟨?completes, ?badRegister, ?atPc, ?missingOperand⟩
  case completes => exact fun s r imm _ => exec_ldi_regByte s r imm
  case badRegister => exact fun s a imm ha => by rw [exec_ldi, runRI_bad s ha]
  case atPc => exact fun s a imm => instructionAtPcRuns s (.ldi a imm)
  case missingOperand => exact missingOperandRaises_opcode .LDI

end Sys2Proof.Machine
end

/-! ## The ALU and its instructions (spec/42_alu.md) -/

section
namespace Sys2Proof.Machine

variable {s t : State}

/-! ### The ALU function -/

/-- A natural number as a byte is its value modulo 256 (R6). -/
theorem ofNat_mod_256 (n : Nat) : BitVec.ofNat 8 (n % 256) = BitVec.ofNat 8 n :=
  BitVec.eq_of_toNat_eq (Nat.mod_mod n 256)

/-- The product of two bytes is the exact product wrapped to a byte (R91). -/
theorem byte_mul_eq_ofNat (x y : Byte) : x * y = BitVec.ofNat 8 (x.toNat * y.toNat) := by
  simp [BitVec.ofNat_mul]

/-- The difference of two bytes is the exact difference wrapped to a byte (R91). -/
theorem byte_sub_eq_ofNat (x y : Byte) : x - y = BitVec.ofNat 8 (x.toNat + 256 - y.toNat) := by
  bv_omega

theorem compareFlags_of_lt {x y : Byte} (h : x.toNat < y.toNat) : compareFlags x y = 0b100#3 := if_pos h

theorem compareFlags_of_gt {x y : Byte} (h : y.toNat < x.toNat) : compareFlags x y = 0b010#3 := by
  rw [compareFlags, if_neg h.not_gt, if_pos h]

theorem compareFlags_of_eq {x y : Byte} (h : x.toNat = y.toNat) : compareFlags x y = 0b001#3 := by
  rw [compareFlags, if_neg h.not_lt, if_neg h.not_gt]

/-- Settles O24, tag by tag. -/
theorem aluFunctionOfR90 : Obligations.AluFunctionOfR90 := by
  intro v1 v2
  refine ⟨?add, ?sub, ?mul, ?divZero, ?div, alu_and v1 v2, ?less, ?greater, ?equal, fun _ => rfl⟩
  case add => rw [alu_add, ofNat_mod_256, BitVec.add_def]
  case sub => rw [alu_sub, ofNat_mod_256, byte_sub_eq_ofNat]
  case mul => rw [alu_mul, ofNat_mod_256, byte_mul_eq_ofNat]
  case divZero =>
    intro h
    obtain rfl : v2 = 0#8 := BitVec.eq_of_toNat_eq h
    exact alu_div_zero v1
  case div =>
    intro h
    have hne : v2 ≠ 0#8 := by rintro rfl; exact h rfl
    rw [alu_div_ok v1 hne, BitVec.udiv_def]
  case less => exact fun h => by rw [alu_cmp, compareFlags_of_lt h]
  case greater => exact fun h => by rw [alu_cmp, compareFlags_of_gt h]
  case equal => exact fun h => by rw [alu_cmp, compareFlags_of_eq h]

/-! ### What the instructions of a format share -/

/-- The clauses common to every two-register instruction: a byte that names no register raises InvalidRegister, the first
before the second (R76, R122); the bytes of the encoding at `pc` run it (R78); a missing operand byte raises (R75). -/
theorem rr_faults_and_fetch (m : Mnemonic) {mk : Byte → Byte → Instr} {h : Reg → Reg → State → Except Raised State}
    (hm : m.arity = 2) (he : ∀ a b s, exec (mk a b) s = runRR s a b h) :
    (∀ (s : State) (a b : Byte), 8 ≤ a.toNat →
      exec (mk a b) s = .next (s.raise ⟨.invalidRegister, .operand a⟩)) ∧
    (∀ (s : State) (a : Reg) (b : Byte), 8 ≤ b.toNat →
      exec (mk (regByte a) b) s = .next (s.raise ⟨.invalidRegister, .operand b⟩)) ∧
    (∀ (s : State) (a b : Byte), s.fetches (encode (mk a b)) → step s = exec (mk a b) s) ∧
    MissingOperandRaises m.opcode 3 := by
  refine ⟨fun s a b ha => ?badFirst, fun s a b hb => ?badSecond, fun s a b => ?atPc, ?missingOperand⟩
  case badFirst => rw [he, runRR_bad_first s ha]
  case badSecond => rw [he, runRR_bad_second s a hb]
  case atPc => exact instructionAtPcRuns s (mk a b)
  case missingOperand => simpa [hm] using missingOperandRaises_opcode m

/-- The same for every one-register instruction. -/
theorem r_faults_and_fetch (m : Mnemonic) {mk : Byte → Instr} {h : Reg → State → Except Raised State}
    (hm : m.arity = 1) (he : ∀ a s, exec (mk a) s = runR s a h) :
    (∀ (s : State) (a : Byte), 8 ≤ a.toNat →
      exec (mk a) s = .next (s.raise ⟨.invalidRegister, .operand a⟩)) ∧
    (∀ (s : State) (a : Byte), s.fetches (encode (mk a)) → step s = exec (mk a) s) ∧
    MissingOperandRaises m.opcode 2 := by
  refine ⟨fun s a ha => ?badRegister, fun s a => ?atPc, ?missingOperand⟩
  case badRegister => rw [he, runR_bad s ha]
  case atPc => exact instructionAtPcRuns s (mk a)
  case missingOperand => simpa [hm] using missingOperandRaises_opcode m

/-- A two-register instruction that puts `f` of its registers' values into the first completes from every state. -/
theorem exec_rr_setReg {mk : Byte → Byte → Instr} (f : Byte → Byte → Byte)
    (he : ∀ a b s, exec (mk a b) s = runRR s a b fun ra rb t => .ok (t.setReg ra (f (t.reg ra) (t.reg rb))))
    (s : State) (a b : Reg) :
    exec (mk (regByte a) (regByte b)) s =
      .next { s with x := s.x.set a (f (s.reg a) (s.reg b)), pc := s.pc + 3#9 } := by
  rw [he, runRR_valid, commit_ok]; rfl

/-- A one-register instruction that puts `f` of its register's value back into it completes from every state. -/
theorem exec_r_setReg {mk : Byte → Instr} (f : Byte → Byte)
    (he : ∀ a s, exec (mk a) s = runR s a fun ra t => .ok (t.setReg ra (f (t.reg ra)))) (s : State) (a : Reg) :
    exec (mk (regByte a)) s = .next { s with x := s.x.set a (f (s.reg a)), pc := s.pc + 2#9 } := by
  rw [he, runR_valid, commit_ok]; rfl

/-! ### ADD, MUL, AND, INC, DEC -/

/-- Settles O30. -/
theorem addStoresTheWrappedSum : Obligations.AddStoresTheWrappedSum := by
  refine ⟨fun s a b _ => ?completes, rr_faults_and_fetch .ADD rfl exec_add⟩
  rw [← BitVec.add_def]
  exact exec_rr_setReg (· + ·) exec_add s a b

/-- Settles O31. -/
theorem mulStoresTheWrappedProduct : Obligations.MulStoresTheWrappedProduct := by
  refine ⟨fun s a b _ => ?completes, rr_faults_and_fetch .MUL rfl exec_mul⟩
  rw [← byte_mul_eq_ofNat]
  exact exec_rr_setReg (· * ·) exec_mul s a b

/-- Settles O33. -/
theorem andStoresTheBitwiseAnd : Obligations.AndStoresTheBitwiseAnd :=
  ⟨fun s a b _ => exec_rr_setReg (· &&& ·) exec_and s a b, rr_faults_and_fetch .AND rfl exec_and⟩

/-- Settles O34. -/
theorem incAddsOneWrapping : Obligations.IncAddsOneWrapping := by
  refine ⟨fun s a _ => ?completes, r_faults_and_fetch .INC rfl exec_inc⟩
  have hinc : BitVec.ofNat 8 ((s.reg a).toNat + 1) = s.reg a + 1#8 := (BitVec.add_def (s.reg a) 1#8).symm
  rw [hinc]
  exact exec_r_setReg (· + 1#8) exec_inc s a

/-- Settles O35: subtracting 1 is adding 255 modulo 256. -/
theorem decSubtractsOneWrapping : Obligations.DecSubtractsOneWrapping := by
  refine ⟨fun s a _ => ?completes, r_faults_and_fetch .DEC rfl exec_dec⟩
  have hdec : BitVec.ofNat 8 ((s.reg a).toNat + 255) = s.reg a - 1#8 := (byte_sub_eq_ofNat (s.reg a) 1#8).symm
  rw [hdec]
  exact exec_r_setReg (· - 1#8) exec_dec s a

/-! ### DIV -/

/-- DIV with two registers: the divisor is looked at after the register checks, and before anything is written (R94). -/
theorem exec_div_regByte (s : State) (a b : Reg) :
    exec (.div (regByte a) (regByte b)) s = commit s
      (if s.reg b = 0#8 then .error ⟨.divisionByZero, .nothing⟩
        else .ok ((s.advance 3).setReg a (s.reg a / s.reg b))) := by
  rw [exec_div, runRR_valid]; rfl

/-- Settles O32: the two cases are those of the divisor. -/
theorem divStoresTheQuotientOrRaises : Obligations.DivStoresTheQuotientOrRaises := by
  refine ⟨fun s a b _ hb => ?completes, fun s a b _ hb => ?zeroDivisor, rr_faults_and_fetch .DIV rfl exec_div⟩
  case completes => rw [exec_div_regByte, if_neg hb, commit_ok, BitVec.udiv_def]; rfl
  case zeroDivisor => rw [exec_div_regByte, if_pos hb, commit_error]

/-! ### CMP -/

/-- CMP with two registers completes from every state. -/
theorem exec_cmp_regByte (s : State) (a b : Reg) :
    exec (.cmp (regByte a) (regByte b)) s =
      .next ((s.advance 3).setFlags (compareFlags (s.reg a) (s.reg b))) := by
  rw [exec_cmp, runRR_valid, commit_ok]; rfl

/-- Only the opcode of CMP at `pc` makes a step change `fl` (R20). -/
theorem readByte_of_step_changes_fl (e : step s = .next t) (h : t.fl ≠ s.fl) :
    s.readByte s.pc.toNat = Mnemonic.opcode .CMP := by
  obtain ⟨hfl, -⟩ := onlyTheseInstructionsWrite s t e
  exact (opcode_of_lookup (hfl h)).symm

/-- Settles O36: the flags CMP sets are those of `compareFlags`. -/
theorem cmpSetsExactlyOneFlag : Obligations.CmpSetsExactlyOneFlag := by
  obtain ⟨hfirst, hsecond, hfetch, hmissing⟩ := rr_faults_and_fetch .CMP rfl exec_cmp
  exact ⟨fun s a b _ => exec_cmp_regByte s a b, hfirst, hsecond, hfetch, hmissing,
    fun _ _ => readByte_of_step_changes_fl⟩

/-- Settles O46: a fault leaves all this alone, and so does the write to `fl`. -/
theorem cmpFrame : Obligations.CmpFrame := by
  intro s t a b e
  rcases exec_raises_or_commits e with ⟨r, rfl⟩ | hc
  · exact ⟨fun _ _ => rfl, rfl, rfl, rfl, rfl, fun _ => rfl, .inr ⟨r, rfl⟩⟩
  · cases hc with
    | result v hi => cases hi
    | cmp a b => exact ⟨fun _ _ => rfl, rfl, rfl, rfl, rfl, fun _ => rfl, .inl ⟨rfl, rfl⟩⟩

end Sys2Proof.Machine
end

/-! ## PRN (spec/43_prn.md) -/

section
namespace Sys2Proof.Machine

/-- PRN with a register completes from every state: the register's value is emitted, and `pc` has passed the two bytes
(R77, R100). -/
theorem exec_prn_regByte (s : State) (a : Reg) :
    exec (.prn (regByte a)) s = .next ((s.advance 2).emit (s.reg a)) := by
  rw [exec_prn, runR_valid, commit_ok]; rfl

/-- Settles O37. -/
theorem prnEmitsTheRegister : Obligations.PrnEmitsTheRegister :=
  ⟨fun s a _ => exec_prn_regByte s a, r_faults_and_fetch .PRN rfl exec_prn⟩

/-- Settles O47: a fault leaves all this alone, and so does what PRN commits. -/
theorem prnFrame : Obligations.PrnFrame := by
  intro s t a e
  rcases exec_raises_or_commits e with ⟨r, rfl⟩ | hc
  · exact ⟨fun _ _ => rfl, rfl, rfl, rfl, rfl, fun _ => rfl, .inr ⟨r, rfl⟩⟩
  · cases hc with
    | result v hi => cases hi
    | prn a => exact ⟨fun _ _ => rfl, rfl, rfl, rfl, rfl, fun _ => rfl, .inl ⟨rfl, rfl⟩⟩

end Sys2Proof.Machine
end

/-! ## The stack (spec/44_stack.md) -/

section
namespace Sys2Proof.Machine

variable {s : State}

/-! ### PUSH -/

/-- PUSH of a register where `sp` is 0 (R105). -/
theorem exec_push_full (a : Reg) (h : s.sp = 0#8) :
    exec (.push (regByte a)) s = .next (s.raise (outOfBoundsAt (-1))) := by
  rw [exec_push, runR_valid, push_error (s := s.advance 2) _ h, commit_error]

/-- Settles O38: the two cases are those of the slot a push stores to. -/
theorem pushStoresAtTheNewSp : Obligations.PushStoresAtTheNewSp := by
  refine ⟨fun s a _ hsp => ?completes, fun s a _ hsp => exec_push_full a hsp, r_faults_and_fetch .PUSH rfl exec_push⟩
  rw [← byte_sub_one_toNat hsp]
  exact exec_push_ok a hsp

/-! ### POP -/

/-- POP to a register where `sp` is not 255 (R106). -/
theorem exec_pop_ok (a : Reg) (h : s.sp ≠ 255#8) :
    exec (.pop (regByte a)) s =
      .next (State.setReg { s.advance 2 with sp := s.sp + 1#8 } a (s.readByte s.sp.toNat)) := by
  rw [exec_pop, runR_valid, pop_ok (s := s.advance 2) h]; rfl

/-- POP where `sp` is 255 (R106). -/
theorem exec_pop_empty (a : Reg) (h : s.sp = 255#8) :
    exec (.pop (regByte a)) s = .next (s.raise (outOfBoundsAt 256)) := by
  rw [exec_pop, runR_valid, pop_error (s := s.advance 2) h, commit_error]

/-- Settles O39: the two cases are those of what a pop answers. -/
theorem popLoadsFromTheOldSp : Obligations.PopLoadsFromTheOldSp :=
  ⟨fun _ a _ hsp => exec_pop_ok a hsp, fun _ a _ hsp => exec_pop_empty a hsp, r_faults_and_fetch .POP rfl exec_pop⟩

/-! ### The frame of the instructions that pop -/

/-- A write to one register keeps the others. -/
theorem keepsRegsBut_setReg {u : State} {a : Reg} {v : Byte} (hu : u.x = s.x) :
    keepsRegsBut (some (regByte a)) s (u.setReg a v) := by
  intro r hr
  have hne : r ≠ a := by rintro rfl; exact hr rfl
  rw [State.setReg_reg_ne u hne v, State.reg, hu, State.reg]

/-- Settles O49: a fault leaves all this alone; POP commits a write to its own register, RET none, and neither writes
memory. -/
theorem popAndRetFrame : Obligations.PopAndRetFrame := by
  rintro s t dst (⟨a, rfl, e⟩ | ⟨rfl, e⟩) <;> rcases exec_raises_or_commits e with ⟨r, rfl⟩ | hc
  case inl.inl | inr.inl => exact ⟨fun _ _ => rfl, rfl, rfl, rfl, rfl, fun _ => rfl, .inr ⟨r, rfl⟩⟩
  case inl.inr =>
    cases hc with
    | result v hi => cases hi
    | pop a _ =>
      exact ⟨keepsRegsBut_setReg rfl, rfl, rfl, rfl, rfl, fun _ => rfl, .inl ⟨rfl, rfl⟩⟩
  case inr.inr =>
    cases hc with
    | result v hi => cases hi
    | ret _ => exact ⟨fun _ _ => rfl, rfl, rfl, rfl, rfl, fun _ => rfl, .inl ⟨rfl, rfl⟩⟩

/-! ### PUSH, then POP -/

/-- A stack pointer that a push moved down is not at the top of memory, where a pop raises (R19). -/
theorem byte_sub_one_ne_255 {b : Byte} (h : b ≠ 0#8) : b - 1#8 ≠ 255#8 := by
  bv_omega

/-- Settles O54: the POP reads the cell the PUSH wrote, and moves `sp` back up. -/
theorem pushThenPopRoundTrips : Obligations.PushThenPopRoundTrips := by
  intro s a b hwf hpush hsp
  refine ⟨_, (instructionAtPcRuns s (.push (regByte a)) hpush).trans (exec_push_ok a hsp), fun hpop => ?_⟩
  have hcell : (s.mem.write (s.sp - 1#8).toNat (s.reg a)).read (s.sp - 1#8).toNat = s.reg a :=
    Memory.read_write_self s.mem _ _ hwf
  refine ⟨_, (instructionAtPcRuns _ (.pop (regByte b)) hpop).trans (exec_pop_ok b (byte_sub_one_ne_255 hsp)),
    ?value, ?otherRegs, ?sp, ?cell, hpush.1⟩
  case value => exact (State.setReg_reg_self _ b _).trans hcell
  case otherRegs => exact fun r hr => State.setReg_reg_ne _ hr _
  case sp => exact BitVec.sub_add_cancel s.sp 1#8
  case cell => rw [← byte_sub_one_toNat hsp]; exact hcell

end Sys2Proof.Machine
end

/-! ## Control transfer (spec/45_control_transfer.md) -/

section
namespace Sys2Proof.Machine

variable {s t : State}

/-! ### CALL -/

/-- CALL of a register where the return address fits a byte and `sp` is not 0 (R110). -/
theorem exec_call_ok (a : Reg) (hret : s.pc.toNat + 2 < 256) (hsp : s.sp ≠ 0#8) :
    exec (.call (regByte a)) s =
      .next { s with
        sp := s.sp - 1#8
        mem := s.mem.write (s.sp - 1#8).toNat (BitVec.ofNat 8 (s.pc.toNat + 2))
        pc := zext9 (s.reg a) } := by
  rw [exec_call, runR_valid, advance_pc_toNat hret.le, returnByte_ok hret]
  simp only [push_ok (s := s.advance 2) _ hsp]
  rfl

/-- CALL at address 254, whatever `sp`: the return address 256 does not fit a byte (R110, R129; decision D10). -/
theorem exec_call_no_returnByte (a : Reg) (hpc : s.pc.toNat = 254) :
    exec (.call (regByte a)) s = .next (s.raise (outOfBoundsAt 256)) := by
  have hret : (s.advance 2).pc.toNat = 256 := by rw [advance_pc_toNat (by omega), hpc]
  rw [exec_call, runR_valid, hret, returnByte_error le_rfl]
  rfl

/-- CALL where the return address fits a byte and `sp` is 0 (R110). -/
theorem exec_call_full (a : Reg) (hret : s.pc.toNat + 2 < 256) (hsp : s.sp = 0#8) :
    exec (.call (regByte a)) s = .next (s.raise (outOfBoundsAt (-1))) := by
  rw [exec_call, runR_valid, advance_pc_toNat hret.le, returnByte_ok hret]
  simp only [push_error (s := s.advance 2) _ hsp, commit_error]

/-- Settles O40: first the return address, then the slot the push stores to. -/
theorem callPushesTheNextAddress : Obligations.CallPushesTheNextAddress := by
  refine ⟨fun s a hready hpc hsp => ?completes, fun s a _ hpc => exec_call_no_returnByte a hpc,
    fun s a hready hpc hsp => exec_call_full a (by omega) hsp, r_faults_and_fetch .CALL rfl exec_call⟩
  rw [← byte_sub_one_toNat hsp]
  exact exec_call_ok a (by omega) hsp

/-! ### RET -/

/-- RET where `sp` is not 255 (R111). -/
theorem exec_ret_ok (h : s.sp ≠ 255#8) :
    exec .ret s = .next { s with pc := zext9 (s.readByte s.sp.toNat), sp := s.sp + 1#8 } := by
  rw [exec_ret, pop_ok (s := s.advance 1) h]; rfl

/-- RET where `sp` is 255 (R111). -/
theorem exec_ret_empty (h : s.sp = 255#8) : exec .ret s = .next (s.raise (outOfBoundsAt 256)) := by
  rw [exec_ret, pop_error (s := s.advance 1) h, commit_error]

/-- Settles O41: the two cases are those of what a pop answers. -/
theorem retPopsThePc : Obligations.RetPopsThePc :=
  ⟨fun _ _ hsp => exec_ret_ok hsp, fun _ _ hsp => exec_ret_empty hsp, fun s => instructionAtPcRuns s .ret⟩

/-! ### JMP and JEQ -/

/-- JMP with a register completes from every state (R112). -/
theorem exec_jmp_regByte (s : State) (a : Reg) :
    exec (.jmp (regByte a)) s = .next { s with pc := zext9 (s.reg a) } := by
  rw [exec_jmp, runR_valid, commit_ok]; rfl

/-- Settles O42. -/
theorem jmpSetsThePc : Obligations.JmpSetsThePc :=
  ⟨fun s a _ => exec_jmp_regByte s a, r_faults_and_fetch .JMP rfl exec_jmp⟩

/-- JEQ with a register completes from every state; `fl.E` decides where `pc` goes (R113). -/
theorem exec_jeq_regByte (s : State) (a : Reg) :
    exec (.jeq (regByte a)) s = .next { s with pc := if flagE s.fl then zext9 (s.reg a) else s.pc + 2#9 } := by
  rw [exec_jeq, runR_valid, commit_ok, State.advance_fl]
  split <;> rfl

/-- Settles O43: `fl.E` is bit 0 of `fl`. -/
theorem jeqBranchesOnEqual : Obligations.JeqBranchesOnEqual := by
  refine ⟨fun s a _ hfl => ?taken, fun s a _ hfl => ?notTaken, r_faults_and_fetch .JEQ rfl exec_jeq⟩
  case taken => rw [exec_jeq_regByte, flagE, if_pos hfl]
  case notTaken => rw [exec_jeq_regByte, flagE, hfl, if_neg Bool.false_ne_true]

/-! ### The frame of JMP, JEQ and HLT -/

/-- JMP and JEQ take a fault or write `pc` alone (R112, R113). -/
theorem exec_jmp_or_jeq_cases {a : Byte} (e : exec (.jmp a) s = .next t ∨ exec (.jeq a) s = .next t) :
    (∃ r, t = s.raise r) ∨ ∃ p, t = { s with pc := p } := by
  rcases e with e | e <;> refine (exec_raises_or_commits e).imp_right fun hc => ?_
  case inl =>
    cases hc with
    | result v hi => cases hi
    | jmp => exact ⟨_, rfl⟩
  case inr =>
    cases hc with
    | result v hi => cases hi
    | jeqTaken | jeqNotTaken => exact ⟨_, rfl⟩

/-- Settles O50: a fault leaves all this alone, a jump writes `pc`, and HLT writes `run` besides. -/
theorem jumpAndHaltFrame : Obligations.JumpAndHaltFrame := by
  intro s t a e
  rcases or_assoc.mpr e with e | e
  · rcases exec_jmp_or_jeq_cases e with ⟨r, rfl⟩ | ⟨p, rfl⟩
    · exact ⟨fun _ _ => rfl, rfl, rfl, rfl, rfl, rfl, fun _ => rfl, .inl (.inr ⟨r, rfl⟩)⟩
    · exact ⟨fun _ _ => rfl, rfl, rfl, rfl, rfl, rfl, fun _ => rfl, .inl (.inl ⟨rfl, rfl⟩)⟩
  · cases (exec_hlt s).symm.trans e
    exact ⟨fun _ _ => rfl, rfl, rfl, rfl, rfl, rfl, fun _ => rfl, .inr ⟨e, rfl, rfl⟩⟩

/-! ### CALL, then RET -/

/-- An integer that fits a byte is the same integer as a target of a control transfer (R6, R34). -/
theorem zext9_ofNat_toNat {n : Nat} (h : n < 256) : (zext9 (BitVec.ofNat 8 n)).toNat = n :=
  (BitVec.toNat_setWidth_of_le (by decide)).trans (Nat.mod_eq_of_lt h)

/-- A running machine with the opcode of RET at `pc`, inside memory, runs RET. -/
theorem step_of_ret_at_pc (hop : s.readByte s.pc.toNat = 0x11#8) (hp : s.pc.toNat < 256) (hr : s.run = .running) :
    step s = exec .ret s :=
  instructionAtPcRuns s .ret ⟨hr, bytesAt_cons.mpr ⟨hp, hop, rfl⟩⟩

/-- Settles O55: the RET reads the cell the CALL wrote, and moves `sp` back up. -/
theorem callThenRetReturns : Obligations.CallThenRetReturns := by
  intro s a hwf hcall hpc hsp
  have ⟨hrun, hbytes⟩ := hcall
  obtain ⟨-, -, hoperand⟩ := bytesAt_cons.mp hbytes
  obtain ⟨hroom, -, -⟩ := bytesAt_cons.mp hoperand
  have hret : s.pc.toNat + 2 < 256 := by omega
  refine ⟨_, (instructionAtPcRuns s (.call (regByte a)) hcall).trans (exec_call_ok a hret hsp), rfl, hrun,
    fun hop => ?_⟩
  have hcell : (s.mem.write (s.sp - 1#8).toNat (BitVec.ofNat 8 (s.pc.toNat + 2))).read (s.sp - 1#8).toNat =
      BitVec.ofNat 8 (s.pc.toNat + 2) := Memory.read_write_self s.mem _ _ hwf
  refine ⟨_, (step_of_ret_at_pc hop (zext9_toNat_lt _) hrun).trans (exec_ret_ok (byte_sub_one_ne_255 hsp)),
    ?pc, ?sp, rfl, rfl, hrun⟩
  case pc => exact (congrArg (fun v => (zext9 v).toNat) hcell).trans (zext9_ofNat_toNat hret)
  case sp => exact BitVec.sub_add_cancel s.sp 1#8

end Sys2Proof.Machine
end

/-! ## HLT (spec/46_hlt.md) -/

section
namespace Sys2Proof.Machine

variable {s t : State}

/-- The state HLT leaves is halted (R115). -/
theorem run_of_exec_hlt (e : exec .hlt s = .next t) : t.run = .halted := by
  rw [exec_hlt, Host.Outcome.next.injEq] at e
  rw [← e, State.halt_run]

/-- An ended machine takes no step (R70). -/
theorem step_ne_next_of_ended (h : t.ended) (u : State) : step t ≠ .next u :=
  fun e => h (step_cases e).1

/-- Settles O44: `execHlt` advances by one byte and halts from every state, and a halted state has no step. -/
theorem hltHaltsTheMachine : Obligations.HltHaltsTheMachine := by
  refine ⟨fun s _ => exec_hlt s, fun s => instructionAtPcRuns s .hlt, fun s t e => ?noStep⟩
  case noStep =>
    have hrun : t.run = .halted := run_of_exec_hlt e
    exact step_ne_next_of_ended (by simp [hrun])

end Sys2Proof.Machine
end

/-! ## The exceptions (spec/60_exceptions.md) -/

section
namespace Sys2Proof.Machine

variable {s t : State} {i : Instr} {r : Raised} {f : FaultRecord}

/-! ### What an instruction raises -/

/-- The faults an instruction raises in a state (R110, R121 to R123), one case for each check that can fail; a register
operand that names no register is reported by the first such byte. -/
inductive Raises (s : State) : Instr → Raised → Prop
  | invalidRegister {i : Instr} {pre post : List Byte} {b : Byte} (hi : i.regOperands = pre ++ b :: post)
      (hpre : ∀ c ∈ pre, c.toNat < 8) (hb : 8 ≤ b.toNat) : Raises s i ⟨.invalidRegister, .operand b⟩
  | divisionByZero (a b : Reg) (h : s.reg b = 0#8) :
      Raises s (.div (regByte a) (regByte b)) ⟨.divisionByZero, .nothing⟩
  | pushFull (a : Reg) (h : s.sp = 0#8) : Raises s (.push (regByte a)) (outOfBoundsAt (-1))
  | popEmpty (a : Reg) (h : s.sp = 255#8) : Raises s (.pop (regByte a)) (outOfBoundsAt 256)
  | retEmpty (h : s.sp = 255#8) : Raises s .ret (outOfBoundsAt 256)
  | callNoReturnByte (a : Reg) (h : 256 ≤ (s.advance 2).pc.toNat) :
      Raises s (.call (regByte a)) (outOfBoundsAt (s.advance 2).pc.toNat)
  | callFull (a : Reg) (hret : (s.advance 2).pc.toNat < 256) (h : s.sp = 0#8) :
      Raises s (.call (regByte a)) (outOfBoundsAt (-1))

/-! ### Each of these faults is taken -/

section FirstBadOperand

variable {a a' b : Byte} {pre post : List Byte} (s)

/-- Format `R` raises for its only operand byte, whatever the handler (R76). -/
theorem runR_first_bad (hi : [a] = pre ++ b :: post) (hb : 8 ≤ b.toNat) (h : Reg → State → Except Raised State) :
    runR s a h = .next (s.raise ⟨.invalidRegister, .operand b⟩) := by
  cases pre with
  | nil => cases hi; exact runR_bad s hb h
  | cons => simp at hi

/-- Format `RI` raises for its register operand alone, whatever the immediate (R58, R76). -/
theorem runRI_first_bad (hi : [a] = pre ++ b :: post) (hb : 8 ≤ b.toNat) (imm : Byte)
    (h : Reg → Byte → State → Except Raised State) :
    runRI s a imm h = .next (s.raise ⟨.invalidRegister, .operand b⟩) := by
  cases pre with
  | nil => cases hi; exact runRI_bad s hb h
  | cons => simp at hi

/-- Format `RR` raises for its second operand byte only where the first names a register (R76). -/
theorem runRR_first_bad (hi : [a, a'] = pre ++ b :: post) (hpre : ∀ c ∈ pre, c.toNat < 8) (hb : 8 ≤ b.toNat)
    (h : Reg → Reg → State → Except Raised State) :
    runRR s a a' h = .next (s.raise ⟨.invalidRegister, .operand b⟩) := by
  match pre with
  | [] => cases hi; exact runRR_bad_first s hb h
  | [c] =>
    cases hi
    rw [eq_regByte (hpre a (List.mem_singleton_self a))]
    exact runRR_bad_second s _ hb h
  | _ :: _ :: _ => simp at hi

/-- The first operand byte that names no register is raised, whichever the instruction (R76, R122). -/
theorem exec_first_bad (hi : i.regOperands = pre ++ b :: post) (hpre : ∀ c ∈ pre, c.toNat < 8) (hb : 8 ≤ b.toNat) :
    exec i s = .next (s.raise ⟨.invalidRegister, .operand b⟩) := by
  cases i with
  | ldi a imm => exact (exec_ldi a imm s).trans (runRI_first_bad s hi hb imm _)
  | add a b => exact (exec_add a b s).trans (runRR_first_bad s hi hpre hb _)
  | mul a b => exact (exec_mul a b s).trans (runRR_first_bad s hi hpre hb _)
  | div a b => exact (exec_div a b s).trans (runRR_first_bad s hi hpre hb _)
  | and a b => exact (exec_and a b s).trans (runRR_first_bad s hi hpre hb _)
  | cmp a b => exact (exec_cmp a b s).trans (runRR_first_bad s hi hpre hb _)
  | inc a => exact (exec_inc a s).trans (runR_first_bad s hi hb _)
  | dec a => exact (exec_dec a s).trans (runR_first_bad s hi hb _)
  | prn a => exact (exec_prn a s).trans (runR_first_bad s hi hb _)
  | push a => exact (exec_push a s).trans (runR_first_bad s hi hb _)
  | pop a => exact (exec_pop a s).trans (runR_first_bad s hi hb _)
  | call a => exact (exec_call a s).trans (runR_first_bad s hi hb _)
  | jmp a => exact (exec_jmp a s).trans (runR_first_bad s hi hb _)
  | jeq a => exact (exec_jeq a s).trans (runR_first_bad s hi hb _)
  | ret | hlt => simp [Instr.regOperands] at hi

end FirstBadOperand

/-- An instruction takes each fault it raises (R127). -/
theorem exec_of_raises (h : Raises s i r) : exec i s = .next (s.raise r) := by
  cases h with
  | invalidRegister hi hpre hb => exact exec_first_bad s hi hpre hb
  | divisionByZero a b h => rw [exec_div_regByte, if_pos h, commit_error]
  | pushFull a h => exact exec_push_full a h
  | popEmpty a h => exact exec_pop_empty a h
  | retEmpty h => exact exec_ret_empty h
  | callNoReturnByte a h => rw [exec_call, runR_valid, returnByte_error h]; rfl
  | callFull a hret h =>
    rw [exec_call, runR_valid, returnByte_ok hret]
    simp only [push_error (s := s.advance 2) _ h, commit_error]

/-! ### No other fault is taken -/

/-- What a handler of an instruction answers when it raises only what the instruction does, and keeps the fault record
otherwise. -/
def AnswersOf (s : State) (i : Instr) : Except Raised State → Prop
  | .ok u => u.fault = s.fault
  | .error r => Raises s i r

/-- What an instruction leaves: a fault it raises, taken, or the fault record it found. -/
def RaisesOrKeepsFault (s : State) (i : Instr) (t : State) : Prop :=
  (∃ r, Raises s i r ∧ t = s.raise r) ∨ t.fault = s.fault

/-- Commit takes the fault a handler raises, and no other (R79). -/
theorem commit_raisesOrKeepsFault {x : Except Raised State} (hx : AnswersOf s i x) (e : commit s x = .next t) :
    RaisesOrKeepsFault s i t := by
  rcases commit_cases e with rfl | ⟨r, rfl, rfl⟩
  · exact .inr hx
  · exact .inl ⟨r, hx, rfl⟩

/-- Format `R` adds the check of its operand byte to what the handler raises. -/
theorem runR_raisesOrKeepsFault {a : Byte} {h : Reg → State → Except Raised State} (e : runR s a h = .next t)
    (hi : i.regOperands = [a]) (hh : ∀ ra, a = regByte ra → AnswersOf s i (h ra (s.advance 2))) :
    RaisesOrKeepsFault s i t := by
  rcases runR_cases e with ⟨ra, ha, he⟩ | ⟨ha, rfl⟩
  · exact commit_raisesOrKeepsFault (hh ra ha) he
  · exact .inl ⟨_, .invalidRegister (pre := []) hi (by simp) ha, rfl⟩

/-- Format `RI` adds the check of its register operand to what the handler raises. -/
theorem runRI_raisesOrKeepsFault {a imm : Byte} {h : Reg → Byte → State → Except Raised State}
    (e : runRI s a imm h = .next t) (hi : i.regOperands = [a])
    (hh : ∀ ra, a = regByte ra → AnswersOf s i (h ra imm (s.advance 3))) : RaisesOrKeepsFault s i t := by
  rcases runRI_cases e with ⟨ra, ha, he⟩ | ⟨ha, rfl⟩
  · exact commit_raisesOrKeepsFault (hh ra ha) he
  · exact .inl ⟨_, .invalidRegister (pre := []) hi (by simp) ha, rfl⟩

/-- Format `RR` adds the checks of both operand bytes to what the handler raises. -/
theorem runRR_raisesOrKeepsFault {a b : Byte} {h : Reg → Reg → State → Except Raised State}
    (e : runRR s a b h = .next t) (hi : i.regOperands = [a, b])
    (hh : ∀ ra rb, a = regByte ra → b = regByte rb → AnswersOf s i (h ra rb (s.advance 3))) :
    RaisesOrKeepsFault s i t := by
  rcases regOperand_cases a with ⟨ra, rfl, -⟩ | ⟨ha, -⟩
  · rcases regOperand_cases b with ⟨rb, rfl, -⟩ | ⟨hb, -⟩
    · exact commit_raisesOrKeepsFault (hh ra rb rfl rfl) ((runRR_valid s ra rb h).symm.trans e)
    · cases (runRR_bad_second s ra hb h).symm.trans e
      refine .inl ⟨_, .invalidRegister (pre := [regByte ra]) hi ?_ hb, rfl⟩
      simp [regByte_toNat]
  · cases (runRR_bad_first s ha h).symm.trans e
    exact .inl ⟨_, .invalidRegister (pre := []) hi (by simp) ha, rfl⟩

/-- An instruction takes no fault but those of `Raises`. -/
theorem exec_raisesOrKeepsFault (e : exec i s = .next t) : RaisesOrKeepsFault s i t := by
  cases i with
  | ldi a imm => exact runRI_raisesOrKeepsFault ((exec_ldi a imm s).symm.trans e) rfl fun _ _ => rfl
  | add a b => exact runRR_raisesOrKeepsFault ((exec_add a b s).symm.trans e) rfl fun _ _ _ _ => rfl
  | mul a b => exact runRR_raisesOrKeepsFault ((exec_mul a b s).symm.trans e) rfl fun _ _ _ _ => rfl
  | and a b => exact runRR_raisesOrKeepsFault ((exec_and a b s).symm.trans e) rfl fun _ _ _ _ => rfl
  | cmp a b => exact runRR_raisesOrKeepsFault ((exec_cmp a b s).symm.trans e) rfl fun _ _ _ _ => rfl
  | div a b =>
    refine runRR_raisesOrKeepsFault ((exec_div a b s).symm.trans e) rfl ?_
    rintro ra rb rfl rfl
    split
    · next hb => exact .divisionByZero ra rb hb
    · exact rfl
  | inc a => exact runR_raisesOrKeepsFault ((exec_inc a s).symm.trans e) rfl fun _ _ => rfl
  | dec a => exact runR_raisesOrKeepsFault ((exec_dec a s).symm.trans e) rfl fun _ _ => rfl
  | prn a => exact runR_raisesOrKeepsFault ((exec_prn a s).symm.trans e) rfl fun _ _ => rfl
  | jmp a => exact runR_raisesOrKeepsFault ((exec_jmp a s).symm.trans e) rfl fun _ _ => rfl
  | jeq a =>
    refine runR_raisesOrKeepsFault ((exec_jeq a s).symm.trans e) rfl fun _ _ => ?_
    split <;> exact rfl
  | push a =>
    refine runR_raisesOrKeepsFault ((exec_push a s).symm.trans e) rfl ?_
    rintro ra rfl
    rcases push_cases (s.advance 2) ((s.advance 2).reg ra) with ⟨-, hp⟩ | ⟨hsp, hp⟩ <;> rw [hp]
    · exact rfl
    · exact .pushFull ra hsp
  | pop a =>
    refine runR_raisesOrKeepsFault ((exec_pop a s).symm.trans e) rfl ?_
    rintro ra rfl
    rcases pop_cases (s.advance 2) with ⟨-, hp⟩ | ⟨hsp, hp⟩ <;> rw [hp]
    · exact rfl
    · exact .popEmpty ra hsp
  | call a =>
    refine runR_raisesOrKeepsFault ((exec_call a s).symm.trans e) rfl ?_
    rintro ra rfl
    rcases Nat.lt_or_ge (s.advance 2).pc.toNat 256 with hret | hret
    · rw [returnByte_ok hret]
      rcases push_cases (s.advance 2) (BitVec.ofNat 8 (s.advance 2).pc.toNat) with ⟨-, hp⟩ | ⟨hsp, hp⟩ <;>
        simp only [hp]
      · exact rfl
      · exact .callFull ra hret hsp
    · rw [returnByte_error hret]
      exact .callNoReturnByte ra hret
  | ret =>
    refine commit_raisesOrKeepsFault ?_ ((exec_ret s).symm.trans e)
    rcases pop_cases (s.advance 1) with ⟨-, hp⟩ | ⟨hsp, hp⟩ <;> rw [hp]
    · exact rfl
    · exact .retEmpty hsp
  | hlt => cases e; exact .inr rfl

/-- A record found after an instruction that met none is of a fault the instruction raises. -/
theorem raises_of_exec_records (e : exec i s = .next t) (hs : s.fault = none) (hf : t.fault = some f) :
    ∃ r, Raises s i r ∧ r.cause = f.cause := by
  rcases exec_raisesOrKeepsFault e with ⟨r, hr, rfl⟩ | hkeep
  · cases hf; exact ⟨r, hr, rfl⟩
  · simp [hkeep, hs] at hf

/-! ### InvalidRegister, DivisionByZero, UnsupportedALUOp -/

/-- Settles O18. -/
theorem invalidRegisterOfR122 : Obligations.InvalidRegisterOfR122 := by
  intro s i pre b post hi hpre hb
  have hexec : exec i s = .next (s.raise ⟨.invalidRegister, .operand b⟩) := exec_of_raises (.invalidRegister hi hpre hb)
  exact ⟨hexec, fun hbytes => (instructionAtPcRuns s i hbytes).trans hexec, rfl⟩

/-- Settles O22: of all that an instruction can raise, only the zero divisor has this cause. -/
theorem onlyDivisionByZeroRegisterRaises : Obligations.OnlyDivisionByZeroRegisterRaises := by
  refine fun s i t e hs => ⟨?onlyDiv, ?divRaises⟩
  case onlyDiv =>
    rintro ⟨f, hf, hcause⟩
    obtain ⟨r, hr, hrf⟩ := raises_of_exec_records e hs hf
    cases hr with
    | divisionByZero a b hb => exact ⟨a, b, rfl, hb⟩
    | _ => cases hrf.trans hcause
  case divRaises =>
    rintro ⟨a, b, rfl, hb⟩
    cases (exec_of_raises (.divisionByZero a b hb)).symm.trans e
    exact ⟨_, rfl, rfl⟩

/-- Settles O21: no step raises it before an instruction runs, and no instruction does. -/
theorem unsupportedAluOpIsUnreachable : Obligations.UnsupportedAluOpIsUnreachable := by
  refine ⟨fun _ _ _ => rfl, fun s t f e hs hf hcause => ?_⟩
  obtain ⟨-, ⟨-, rfl⟩ | ⟨-, -, -, rfl⟩ | ⟨-, -, -, rfl⟩ | ⟨-, m, -, -, -, rfl⟩ | ⟨i, -, -, -, he⟩⟩ := step_cases e
  case inr.inl => simp [hs] at hf
  case inr.inr.inr.inr =>
    obtain ⟨r, hr, hrf⟩ := raises_of_exec_records he hs hf
    cases hr <;> cases hrf.trans hcause
  all_goals cases hf; cases hcause

/-! ### Precision -/

/-- Settles O20: a step that leaves the machine Faulted has taken a fault, for neither a skipped opcode nor a commit
does. -/
theorem faultsArePrecise : Obligations.FaultsArePrecise := by
  intro s t e hfaulted
  have hrun : s.run = .running := (step_cases e).1
  rcases step_raises_or_skips_or_commits e with ⟨r, rfl⟩ | ⟨-, rfl⟩ | ⟨i, -, -, hc⟩
  · exact ⟨r.cause, r.info, rfl⟩
  · simp [hrun] at hfaulted
  · rcases hc.run_cases with h | ⟨-, h⟩ <;> simp [h, hrun] at hfaulted

/-! ### OutOfBounds -/

/-- Bytes at `pc` that decode are the encoding of what they decode to (R56, R73, R75). -/
theorem bytesAt_encode_of_decode (hroom : s.pc.toNat + i.mnemonic.arity < 256)
    (hd : decode (s.readByte s.pc.toNat) (s.readAhead (s.pc.toNat + 1)) (s.readAhead (s.pc.toNat + 2)) = .ok i) :
    s.bytesAt s.pc.toNat (encode i) = true := by
  obtain ⟨hl, -, -⟩ := decode_ok hd
  refine bytesAt_cons.mpr ⟨by omega, (opcode_of_lookup hl).symm, ?_⟩
  rcases decode_cases (s.readByte s.pc.toNat) (s.readAhead (s.pc.toNat + 1)) (s.readAhead (s.pc.toNat + 2)) with
    ⟨-, e⟩ | ⟨m, -, ⟨-, -, e⟩ | ⟨-, -, -, e⟩ | ⟨-, -, e⟩⟩ <;> cases e.symm.trans hd
  rw [build_mnemonic] at hroom
  rw [build_operands]
  rcases arity_cases m with hm | hm | hm <;> rw [hm] at hroom ⊢
  · rfl
  · simp [readAhead_some hroom, bytesAt_cons, hroom]
  · have h1 : s.pc.toNat + 1 < 256 := by omega
    simp [readAhead_some h1, readAhead_some hroom, bytesAt_cons, h1, hroom]

/-- A step that takes an OutOfBounds leaves a record of it. -/
theorem records_of_step_raises {a : Int} (e : step s = .next (s.raise (outOfBoundsAt a))) :
    ∃ t f, step s = .next t ∧ t.fault = some f ∧ f.cause = .outOfBounds :=
  ⟨_, _, e, rfl, rfl⟩

/-- An instruction at `pc` that raises OutOfBounds leaves a record of it. -/
theorem records_of_raises {a : Int} (hbytes : s.fetches (encode i)) (hr : Raises s i (outOfBoundsAt a)) :
    ∃ t f, step s = .next t ∧ t.fault = some f ∧ f.cause = .outOfBounds :=
  records_of_step_raises ((instructionAtPcRuns s i hbytes).trans (exec_of_raises hr))

/-- A CALL raises OutOfBounds where `sp` is 0, whether or not its return address fits a byte (R110, R129). -/
theorem exists_raises_call_of_sp_zero (a : Reg) (h : s.sp = 0#8) :
    ∃ n, Raises s (.call (regByte a)) (outOfBoundsAt n) := by
  rcases Nat.lt_or_ge (s.advance 2).pc.toNat 256 with hret | hret
  · exact ⟨_, .callFull a hret h⟩
  · exact ⟨_, .callNoReturnByte a hret⟩

/-- Settles O23: the first two situations are met before an instruction runs, the others are the cases of `Raises` with
this cause. -/
theorem outOfBoundsExactlyInTheListOfR121 : Obligations.OutOfBoundsExactlyInTheListOfR121 := by
  refine fun s hrun hs hpc => ⟨?onlyThese, ?theseRaise⟩
  case onlyThese =>
    rintro ⟨t, f, e, hf, hcause⟩
    obtain ⟨-, ⟨hout, -⟩ | ⟨-, -, -, rfl⟩ | ⟨-, -, -, rfl⟩ | ⟨hp, m, hl, ha, hend, -⟩ | ⟨i, hroom, -, hd, he⟩⟩ :=
      step_cases e
    · exact .inl (by omega)
    · simp [hs] at hf
    · cases hf; cases hcause
    · have := arity_cases m
      exact .inr (.inl ⟨m, hl, hp, by omega⟩)
    · have hbytes : s.fetches (encode i) := ⟨hrun, bytesAt_encode_of_decode hroom hd⟩
      obtain ⟨r, hr, hrf⟩ := raises_of_exec_records he hs hf
      cases hr with
      | invalidRegister | divisionByZero => cases hrf.trans hcause
      | pushFull a hsp => exact .inr (.inr (.inl ⟨a, .inl hbytes, hsp⟩))
      | callFull a _ hsp => exact .inr (.inr (.inl ⟨a, .inr hbytes, hsp⟩))
      | popEmpty a hsp => exact .inr (.inr (.inr (.inl ⟨a, hbytes, hsp⟩)))
      | retEmpty hsp => exact .inr (.inr (.inr (.inr (.inl ⟨hbytes, hsp⟩))))
      | callNoReturnByte a hret =>
        have hroom : s.pc.toNat + 1 < 256 := hroom
        rw [advance_pc_toNat (by omega)] at hret
        exact .inr (.inr (.inr (.inr (.inr ⟨a, hbytes, by omega⟩))))
  case theseRaise =>
    rintro (hout | ⟨m, hl, hp, hend⟩ | ⟨a, hbytes | hbytes, hsp⟩ | ⟨a, hbytes, hsp⟩ | ⟨hbytes, hsp⟩ | ⟨a, hbytes, hp⟩)
    · exact records_of_step_raises (step_outside hrun hout.ge)
    · exact records_of_step_raises ((missingOperandByteRaises s m hrun hp hl).1 (by omega))
    · exact records_of_raises (i := .push (regByte a)) hbytes (.pushFull a hsp)
    · obtain ⟨n, hr⟩ := exists_raises_call_of_sp_zero a hsp
      exact records_of_raises (i := .call (regByte a)) hbytes hr
    · exact records_of_raises (i := .pop (regByte a)) hbytes (.popEmpty a hsp)
    · exact records_of_raises (i := .ret) hbytes (.retEmpty hsp)
    · exact records_of_raises (i := .call (regByte a)) hbytes
        (.callNoReturnByte a (by rw [advance_pc_toNat (by omega), hp]))

end Sys2Proof.Machine
end

/-! ## Load, run and result (spec/70_reset_and_hazards.md) -/

section
namespace Sys2Proof.Machine

variable {s t : State}

/-! ### The load -/

/-- Loading memory and choosing the policy keep the invariant of a machine that has recorded nothing (R150, R159). -/
theorem State.Inv.load (hs : s.Inv) (hfault : s.fault = none) (hdiag : s.diag = []) {m : Memory} (hm : m.wf = true)
    (p : UnknownOpcodePolicy) : State.Inv { s with mem := m, policy := p } where
  memWf := hm
  pcInRange := hs.pcInRange
  flagsLegal := hs.flagsLegal
  recordWhenFaulted := hs.recordWhenFaulted
  recordFits := by simp [hfault]
  diagFits := by simp [hdiag]
  diagWhenSkip := fun _ => hdiag

/-- A launched state is the reset state with the image placed into its memory and the policy chosen (R54, R151). -/
theorem eq_of_launch {policy : UnknownOpcodePolicy} {image : List Byte} (h : launch policy image = some s) :
    s = { State.reset with mem := Memory.place Config.loadBase image State.reset.mem, policy := policy } := by
  unfold launch at h
  split at h
  · exact (Option.some.inj h).symm
  · cases h

/-- Settles O4: reset meets the invariant, and the load keeps it. -/
theorem launchMeetsInvariant : Obligations.LaunchMeetsInvariant := by
  intro policy image s h
  rw [eq_of_launch h]
  exact resetMeetsInvariant.load rfl rfl (Memory.place_wf image _ _ resetMeetsInvariant.memWf) policy

/-! ### The run under a budget -/

/-- A budget of one more step takes the step that there is (R159). -/
theorem runFor_succ_of_next (e : step s = .next t) (k : Nat) : runFor (k + 1) s = runFor k t := by
  simp [runFor, e]

/-- An ended run stays as it is (R70, R131). -/
theorem runFor_of_ended (h : s.ended) (k : Nat) : runFor k s = s := by
  cases k with
  | zero => rfl
  | succ k =>
    cases e : step s with
    | next t => exact absurd e (step_ne_next_of_ended h t)
    | fault _ | refused _ => simp [runFor, e]

/-- A run stopped after `j` steps goes on as if it had not been stopped (R159; decision D25): either it has ended, or
both runs take the same first step. -/
theorem runFor_add (j k : Nat) (s : State) : runFor (j + k) s = runFor k (runFor j s) := by
  induction j generalizing s with
  | zero => rw [Nat.zero_add]; rfl
  | succ j ih =>
    by_cases hr : s.run = .running
    · obtain ⟨t, e⟩ := step_isNext hr
      rw [Nat.succ_add, runFor_succ_of_next e, runFor_succ_of_next e, ih]
    · simp only [runFor_of_ended hr]

/-- Settles O56. -/
theorem budgetedRunsResume : Obligations.BudgetedRunsResume :=
  ⟨runFor_add, fun k _ h => runFor_of_ended h k⟩

/-! ### The result of a run -/

/-- The result of an ended run: the state's fields as they stand, the fault record only when Faulted (R160). -/
theorem runResult_of_ended (h : s.ended) :
    runResult s = some ⟨s.run, s.prn, s.diag, s.x, s.sp, s.pc, s.fl, s.mem,
      if s.run = .faulted then s.fault else none⟩ := by
  cases hr : s.run with
  | running => exact absurd hr h
  | halted | faulted => simp [runResult, hr]

/-- There is no result exactly while the machine runs (R160). -/
theorem runResult_eq_none_iff : runResult s = none ↔ s.run = .running := by
  refine ⟨fun h => ?_, fun h => by simp [runResult, h]⟩
  by_contra hr
  simp [runResult_of_ended hr] at h

/-- Under the invariant, leaving the record out while not Faulted leaves it as it stands, for there is none then (log
entry 2). -/
theorem State.Inv.resultFault_eq (hs : s.Inv) : (if s.run = .faulted then s.fault else none) = s.fault := by
  split
  · rfl
  · next hr =>
    have hnone : s.fault = none := by simpa [hr] using hs.recordWhenFaulted
    exact hnone.symm

/-- Settles O57. -/
theorem endedRunsHaveTheResultOfR160 : Obligations.EndedRunsHaveTheResultOfR160 := by
  refine fun s => ⟨runResult_eq_none_iff.trans not_not.symm, fun hs r hres => ?_⟩
  have hended : s.ended := fun hrun => by simp [runResult_eq_none_iff.mpr hrun] at hres
  rw [runResult_of_ended hended, hs.resultFault_eq] at hres
  cases hres
  exact ⟨rfl, rfl, rfl, rfl, rfl, rfl, rfl, rfl, rfl, hs.recordWhenFaulted.symm⟩

end Sys2Proof.Machine
end
